-- ==== Sys2Proof/Word.lean ====
section
/-! DEFINITION. The word types of the Rust-VM CORE: registers of `XLEN = 32` bits, bytes of the program
buffer, 16-bit immediates (rule R7), and the signed reading of a register pattern (rule R10). -/

namespace Sys2Proof

/-- The 32-bit pattern a register holds (rules R7, R13, R21). -/
abbrev Word := BitVec 32

/-- A byte of the program buffer: an opcode, a register field or a jump target (rules R7, R30, R71). -/
abbrev Byte := BitVec 8

/-- A 16-bit immediate field, `IMMW` of rule R7. -/
abbrev Half := BitVec 16

/-- `signed_32(v)` of rule R10: the two's-complement reading of a 32-bit pattern. -/
def signed32 (v : Word) : Int :=
  if v.toNat < 2 ^ 31 then (v.toNat : Int) else (v.toNat : Int) - 2 ^ 32

end Sys2Proof
end

