-- ==== Sys2Proof/Syntax.lean ====
section
/-! DEFINITION. The opcode tags and the instructions of RVM-BC (rules R2, R71). A register field is the
fetched byte itself: its values 32 to 255 are encodings that fault when executed, not other registers
(rule R78). -/

namespace Sys2Proof

/-- The ten opcode tags (rule R2), in the order of the opcode map (rule R76). -/
inductive Opcode where
  | halt
  | loadImmediate
  | move
  | addImmediate
  | subtractImmediate
  | bitwiseAnd
  | bitwiseOr
  | bitwiseXor
  | jump
  | invalid
deriving DecidableEq, Repr

/-- The instructions, one constructor per opcode tag, operands in the order they are fetched (rule R71).
The seven INVALID rows of the opcode table are the one constructor `invalid`, which keeps its byte
(rule R77, decision D22; log entry 13). -/
inductive Instr where
  | halt
  | loadImmediate (reg : Byte) (value : Half)
  | move (dest src : Byte)
  | addImmediate (reg : Byte) (value : Half)
  | subtractImmediate (reg : Byte) (value : Half)
  | bitwiseAnd (dest src : Byte)
  | bitwiseOr (dest src : Byte)
  | bitwiseXor (dest src : Byte)
  | jump (target : Byte)
  | invalid (byte : Byte)
deriving DecidableEq, Repr

/-- The tag of an instruction. -/
def Instr.opcode : Instr → Opcode
  | .halt => .halt
  | .loadImmediate _ _ => .loadImmediate
  | .move _ _ => .move
  | .addImmediate _ _ => .addImmediate
  | .subtractImmediate _ _ => .subtractImmediate
  | .bitwiseAnd _ _ => .bitwiseAnd
  | .bitwiseOr _ _ => .bitwiseOr
  | .bitwiseXor _ _ => .bitwiseXor
  | .jump _ => .jump
  | .invalid _ => .invalid

/-- The register fields of an instruction, in operand order (rules R71, R177). -/
def Instr.regFields : Instr → List Byte
  | .halt => []
  | .loadImmediate reg _ => [reg]
  | .move dest src => [dest, src]
  | .addImmediate reg _ => [reg]
  | .subtractImmediate reg _ => [reg]
  | .bitwiseAnd dest src => [dest, src]
  | .bitwiseOr dest src => [dest, src]
  | .bitwiseXor dest src => [dest, src]
  | .jump _ => []
  | .invalid _ => []

end Sys2Proof
end

