-- ==== Sys2Proof/WellFormed.lean ====
section
/-! DEFINITION. Well-formed instructions: those that some bytes encode. Every value of a register,
immediate or target field is encodable (rules R78, R79); only the byte of INVALID is limited, to
`0x09` to `0xFF` (rules R77, R80). -/

namespace Sys2Proof

/-- Whether an instruction has an encoding (rules R77 to R80). -/
def Instr.wellFormed : Instr → Bool
  | .halt => true
  | .loadImmediate _ _ => true
  | .move _ _ => true
  | .addImmediate _ _ => true
  | .subtractImmediate _ _ => true
  | .bitwiseAnd _ _ => true
  | .bitwiseOr _ _ => true
  | .bitwiseXor _ _ => true
  | .jump _ => true
  | .invalid byte => decide (9 ≤ byte.toNat)

end Sys2Proof
end

