-- ==== Sys2Proof/Decode.lean ====
section
/-! DEFINITION. The decoder and the encoder (`30_encoding.md`; the fetch order of rules R102, R103, R105,
R106). The decoder fetches byte by byte at a moving offset, as the core does; the same decoder reads a
list of bytes and the program buffer. -/

namespace Sys2Proof

/-! ### The opcode map -/

/-- The opcode map of rule R76: the byte of each of the nine operations; every other byte is INVALID.
The numbers are the spec's decision D1, kept in this one table (log entry 1). -/
def opcodeMap : List (Byte × Opcode) :=
  [(0x00#8, .halt), (0x01#8, .loadImmediate), (0x02#8, .move), (0x03#8, .addImmediate),
   (0x04#8, .subtractImmediate), (0x05#8, .bitwiseAnd), (0x06#8, .bitwiseOr), (0x07#8, .bitwiseXor),
   (0x08#8, .jump)]

/-- The tag an opcode table gives a byte, `invalid` where it lists none. -/
def tagIn : List (Byte × Opcode) → Byte → Opcode
  | [], _ => .invalid
  | (k, op) :: rest, b => if b = k then op else tagIn rest b

/-- The byte an opcode table gives a tag, `0xFF` where it lists none. -/
def byteIn : List (Byte × Opcode) → Opcode → Byte
  | [], _ => 0xFF#8
  | (k, t) :: rest, op => if op = t then k else byteIn rest op

/-- `DecodeOpcode` (rule R75): the total map from a byte to an opcode tag. -/
def decodeOpcode (b : Byte) : Opcode := tagIn opcodeMap b

/-- The opcode byte of a tag (rule R76). Used by the encoder for the nine operations; INVALID keeps its
own byte. -/
def opcodeByte (op : Opcode) : Byte := byteIn opcodeMap op

/-- The length in bytes of an instruction, from its tag alone (rule R72). -/
def Opcode.length : Opcode → Nat
  | .halt => 1
  | .loadImmediate => 4
  | .move => 3
  | .addImmediate => 4
  | .subtractImmediate => 4
  | .bitwiseAnd => 3
  | .bitwiseOr => 3
  | .bitwiseXor => 3
  | .jump => 2
  | .invalid => 1

/-- The length in bytes of an instruction (rule R72). -/
def Instr.length (i : Instr) : Nat := i.opcode.length

/-! ### Decoding -/

/-- What decoding from an offset gives: an instruction and the offset of the byte after it, or a
rejection that names the offset at which a byte was to be fetched and there is none (rule R105). No byte
sequence is rejected for another reason: the opcode decoder is total (rule R75). -/
inductive Decoded where
  | instr (i : Instr) (next : Nat)
  | missing (offset : Nat)
deriving DecidableEq, Repr

/-- `Fetch8()` (rule R105): the byte at the offset, and one offset further; the rejection where there is
no byte. -/
def fetch8 (get : Nat → Option Byte) (at_ : Nat) (k : Byte → Nat → Decoded) : Decoded :=
  match get at_ with
  | none => .missing at_
  | some b => k b (at_ + 1)

/-- The 16-bit operand of two bytes, "(first_byte << 8) | second_byte", big-endian (rules R52, R73). -/
def half (hi lo : Byte) : Half := (hi.setWidth 16 <<< 8) ||| lo.setWidth 16

/-- `Fetch16()` (rule R106): two byte fetches, each with its own bounds check. -/
def fetch16 (get : Nat → Option Byte) (at_ : Nat) (k : Half → Nat → Decoded) : Decoded :=
  fetch8 get at_ fun hi a => fetch8 get a fun lo a' => k (half hi lo) a'

/-- The operands of format FRI: `reg`, then `value` (rule R71). -/
def fetchRegImm (get : Nat → Option Byte) (at_ : Nat) (mk : Byte → Half → Instr) : Decoded :=
  fetch8 get at_ fun reg a => fetch16 get a fun value a' => .instr (mk reg value) a'

/-- The operands of format FRR: `dest`, then `src` (rule R71). -/
def fetchRegReg (get : Nat → Option Byte) (at_ : Nat) (mk : Byte → Byte → Instr) : Decoded :=
  fetch8 get at_ fun dest a => fetch8 get a fun src a' => .instr (mk dest src) a'

/-- Fetching and decoding one instruction from an offset: the opcode byte, then the operands its tag
asks for, left to right (rules R26, R102, R103). -/
def decodeFrom (get : Nat → Option Byte) (at_ : Nat) : Decoded :=
  fetch8 get at_ fun b a =>
    match decodeOpcode b with
    | .halt => .instr .halt a
    | .loadImmediate => fetchRegImm get a .loadImmediate
    | .move => fetchRegReg get a .move
    | .addImmediate => fetchRegImm get a .addImmediate
    | .subtractImmediate => fetchRegImm get a .subtractImmediate
    | .bitwiseAnd => fetchRegReg get a .bitwiseAnd
    | .bitwiseOr => fetchRegReg get a .bitwiseOr
    | .bitwiseXor => fetchRegReg get a .bitwiseXor
    | .jump => fetch8 get a fun target a' => .instr (.jump target) a'
    | .invalid => .instr (.invalid b) a

/-- Decoding the instruction at the head of a list of bytes; `next` is the number of bytes it took. -/
def decode (bytes : List Byte) : Decoded := decodeFrom (fun a => bytes[a]?) 0

/-! ### Encoding -/

/-- The high byte of an immediate, the one at the lower offset (rules R52, R71). -/
def halfHi (v : Half) : Byte := (v >>> 8).setWidth 8

/-- The low byte of an immediate (rules R52, R71). -/
def halfLo (v : Half) : Byte := v.setWidth 8

/-- The bytes of an instruction, byte 0 first (rules R71, R76, R80). -/
def encode : Instr → List Byte
  | .halt => [opcodeByte .halt]
  | .loadImmediate reg value => [opcodeByte .loadImmediate, reg, halfHi value, halfLo value]
  | .move dest src => [opcodeByte .move, dest, src]
  | .addImmediate reg value => [opcodeByte .addImmediate, reg, halfHi value, halfLo value]
  | .subtractImmediate reg value => [opcodeByte .subtractImmediate, reg, halfHi value, halfLo value]
  | .bitwiseAnd dest src => [opcodeByte .bitwiseAnd, dest, src]
  | .bitwiseOr dest src => [opcodeByte .bitwiseOr, dest, src]
  | .bitwiseXor dest src => [opcodeByte .bitwiseXor, dest, src]
  | .jump target => [opcodeByte .jump, target]
  | .invalid byte => [byte]

/-! ### The host's numbering of an instruction's bits -/

/-- Byte `k` of an instruction whose bits are `w`, numbered as `opcode_table.json` numbers them: bits
7..0 are byte 0, bits 15..8 byte 1, and so on. -/
def byteOfBits (w k : Nat) : Byte := BitVec.ofNat 8 (w / 256 ^ k)

/-- The bytes of an instruction of `nbits` bits `w`, with the bits above `nbits` zero, up to the longest
instruction (4 bytes, rule R72). -/
def bytesOfBits (nbits w : Nat) : List Byte :=
  [byteOfBits (w % 2 ^ nbits) 0, byteOfBits (w % 2 ^ nbits) 1, byteOfBits (w % 2 ^ nbits) 2,
   byteOfBits (w % 2 ^ nbits) 3]

/-- The instruction the decoder reads from an instruction whose bits are `w`, numbered as the opcode
table numbers them. -/
def decodeTableWord (nbits w : Nat) : Option Instr :=
  match decode (bytesOfBits nbits w) with
  | .instr i _ => some i
  | .missing _ => none

end Sys2Proof
end

