-- ==== Sys2Proof/Config.lean ====
section
/-! DEFINITION. The parameters of rule R7 that are not mere widths, and the one free value of the spec:
the program counter after a fault (rule R179). `NREGS`, `XLEN`, `OPW`, `REGW`, `IMMW` and `TGTW`, which the
source fixes, stand in the types (`Word`, `Byte`, `Half`, 32 registers).

The SETTINGS the spec itself decided stand where a repair can mend them: the opcode numbering is
`opcodeMap` in `Decode.lean` (D1), the guard is `guardStrict` in `Machine/Ops.lean` (D2), the widening
is `immExtend` in `Machine/Operands.lean` (D3). `PROG_MAX` is OPEN (D5): it is an argument of the
LOAD_PROGRAM command in `Machine/Command.lean`. -/

namespace Sys2Proof

/-- The two readings of "zero/sign-extended" that rule R74 keeps as the parameter `IMM_EXTEND`. -/
inductive ImmExtend where
  | zero
  | sign
deriving DecidableEq, Repr

/-- The program counter after a fault. Rule R179 leaves it unspecified, any value; it is a free value,
drawn afresh at each fault by the counter `State.freeCount` (log entry 7). Nothing evaluates it. -/
opaque Config.postFaultPc : Nat → Nat

end Sys2Proof
end

