-- ==== Sys2Proof/Machine/State.lean ====
section
/-! DEFINITION. The state of the Rust-VM CORE (rules R20, R33, R36), the reasons a step stops, and the
state after reset. State is plain data. -/

namespace Sys2Proof.Machine

/-- The two fatal faults (rules R33, R171), with the information each records. As the latched value of
`State.faultLatch` one says what stopped the core. As an outcome of `step` it says that the core stands
stopped by that fault and performs no step (rule R180). -/
inductive Fault where
  /-- Code 1. Raised by the register check of the seven instructions with a register field, for a field
  value of 32 or more (rules R107, R172). As an outcome, answered by `step` alone, in every state in
  which it is latched; safe: no step happens in the hardware either. -/
  | registerOutOfRange (index : Byte)
  /-- Code 2. Raised by the fetch of a byte at or beyond the end of the program (rules R105, R173). As
  an outcome, answered by `step` alone, in every state in which it is latched; safe: no step happens in
  the hardware either. -/
  | fetchOutOfRange (offset : Nat)
deriving DecidableEq, Repr

/-- Why the model gives no meaning. No arm of `exec` answers one: every instruction is modelled. -/
inductive Refusal where
  /-- An instruction whose arm in `Machine/Dispatch.lean` has no meaning yet; raised by no arm now;
  safe. -/
  | notModelled (mnemonic : String)
deriving DecidableEq, Repr

/-- What a step reports (rule R100). It is the step's result, an output; "halted" is not state of the
core (rule R35) and no step reads a report (log entry 8). -/
inductive Report where
  /-- No step has been taken since reset. -/
  | idle
  /-- The step executed an instruction that does not halt. -/
  | running
  /-- The step executed HALT or INVALID, or the bounds guard fired: a clean halt. -/
  | halted
  /-- The step met a fatal condition. -/
  | faulted (f : Fault)
deriving DecidableEq, Repr

/-- The program buffer (rules R30, R50): its length `LEN`, and its bytes as cells at strictly rising
offsets below `LEN`. An offset below `len` with no cell holds `unlistedByte`; an offset from `len` up
holds nothing (log entry 10). -/
structure Memory where
  len : Nat
  cells : List Host.Cell
deriving DecidableEq, Repr

/-- What an offset below `LEN` with no cell of its own holds: the byte `00`. A matter of representation:
LOAD_PROGRAM gives every byte below `LEN` its value (log entry 10). -/
def unlistedByte : Byte := 0#8

/-- The state of the core. -/
structure State where
  /-- The register file, 32 registers of 32 bits, none hardwired (rules R21, R22). -/
  regs : Vector Word 32
  /-- The program counter, a byte offset, a natural number that never wraps (rules R25, R28). -/
  pc : Nat
  /-- The program buffer and its length (rule R30). -/
  prog : Memory
  /-- The fault latch FAULT (rule R33); `none` is the spec's own value "no fault since reset". -/
  faultLatch : Option Fault
  /-- The model's own field: the result of the last step, an output that no step reads (log entry 8). -/
  report : Report
  /-- The model's own field: how many free values have been drawn (log entry 7). -/
  freeCount : Nat
deriving DecidableEq, Repr

/-- The state after reset (rules R36, R200): registers zero, PC zero, program empty, FAULT none. The two
fields of the model's own have the values log entries 7 and 8 name. -/
def State.reset : State where
  regs := Vector.replicate 32 0#32
  pc := 0
  prog := { len := 0, cells := [] }
  faultLatch := none
  report := .idle
  freeCount := 0

end Sys2Proof.Machine
end

