-- ==== Sys2Proof/Machine/Ops.lean ====
section
/-! DEFINITION. The named operations over the program buffer and the registers, the bounds guard, the
fetch, taking a fault, and the two clean ways an instruction completes. -/

namespace Sys2Proof.Machine

/-- The outcome type of the core. -/
abbrev Result := Host.Outcome State Fault Refusal

/-! ### The program buffer -/

/-- The byte the cells give an offset, `unlistedByte` where they list none. -/
def lookupCell : List Host.Cell → Nat → Byte
  | [], _ => unlistedByte
  | (k, b) :: rest, a => if k = a then b else lookupCell rest a

/-- `MemRead(a, 1)` of rule R12 with its bounds (rules R50, R55): the byte at offset `a`, nothing at or
beyond `LEN`. -/
def Memory.byteAt (m : Memory) (a : Nat) : Option Byte :=
  if a < m.len then some (lookupCell m.cells a) else none

/-- The cells of a byte sequence that starts at offset `a`: the bytes other than `unlistedByte`. -/
def cellsFrom : Nat → List Byte → List Host.Cell
  | _, [] => []
  | a, b :: rest => if b = unlistedByte then cellsFrom (a + 1) rest else (a, b) :: cellsFrom (a + 1) rest

/-- The program buffer that holds exactly these bytes (rule R203). -/
def Memory.ofBytes (bytes : List Byte) : Memory where
  len := bytes.length
  cells := cellsFrom 0 bytes

/-- The bytes of a program buffer, in order: the sequence PROG of rule R11. -/
def Memory.toBytes (m : Memory) : List Byte := (List.range m.len).map (lookupCell m.cells)

/-- Cells with offset `a` given the byte `b`, in canonical form. -/
def putCell (a : Nat) (b : Byte) : List Host.Cell → List Host.Cell
  | [] => if b = unlistedByte then [] else [(a, b)]
  | (k, c) :: rest =>
    if a < k then (if b = unlistedByte then (k, c) :: rest else (a, b) :: (k, c) :: rest)
    else if a = k then (if b = unlistedByte then rest else (a, b) :: rest)
    else (k, c) :: putCell a b rest

/-- The buffer with offset `a` holding `b`, lengthened where it does not reach `a`. No instruction and no
command writes one byte (rules R12, R51): only `State.withFetchWord` uses this (log entry 11). -/
def Memory.putByte (m : Memory) (a : Nat) (b : Byte) : Memory where
  len := max m.len (a + 1)
  cells := putCell a b m.cells

/-- The buffer with these bytes from offset `a` on. -/
def Memory.putBytes (m : Memory) (a : Nat) : List Byte → Memory
  | [] => m
  | b :: rest => (m.putByte a b).putBytes (a + 1) rest

/-- Whether the offsets of cells rise strictly from `low` and stay below `high`, and no cell holds
`unlistedByte`. -/
def cellsWf (high : Nat) : Nat → List Host.Cell → Bool
  | _, [] => true
  | low, (k, b) :: rest => decide (low ≤ k) && decide (k < high) && decide (b ≠ unlistedByte) && cellsWf high (k + 1) rest

/-- The canonical form of a program buffer: equal buffers are equal data (log entry 10). -/
def Memory.wf (m : Memory) : Bool := cellsWf m.len 0 m.cells

/-! ### Registers -/

/-- `x[i]`, the content of register `i` (rules R11, R22: no register is hardwired). -/
def State.getReg (s : State) (i : Fin 32) : Word := s.regs.get i

/-- `x[i] <- v` (rule R11). -/
def State.setReg (s : State) (i : Fin 32) (v : Word) : State :=
  { s with regs := s.regs.set i.val v i.isLt }

/-! ### Taking a fault -/

/-- The state after a fault (rules R178, R179): FAULT holds the fault's name and information, registers
and program are as before the step, the PC is a free value (log entry 7), and the step reports the
fault. -/
def takeFault (f : Fault) (s : State) : State :=
  { s with
    faultLatch := some f
    pc := Config.postFaultPc s.freeCount
    freeCount := s.freeCount + 1
    report := .faulted f }

/-- `raise F(info)` (rules R12, R178): the step ends in the state with the fault taken. Nothing returns
from a fault (rule R180). -/
def raiseFault (f : Fault) (s : State) : Result := .next (takeFault f s)

/-- The code of the fault latch (rules R33, R171). -/
def faultCode : Option Fault → Nat
  | none => 0
  | some (.registerOutOfRange _) => 1
  | some (.fetchOutOfRange _) => 2

/-- The information word of the fault latch (rules R33, R171). -/
def faultInfo : Option Fault → Option Nat
  | none => none
  | some (.registerOutOfRange index) => some index.toNat
  | some (.fetchOutOfRange offset) => some offset

/-! ### Clean completion -/

/-- The state with the step ended cleanly: the PC at `pc`, the step's report `r`, nothing else changed. -/
def State.endStep (s : State) (pc : Nat) (r : Report) : State := { s with pc := pc, report := r }

/-- An instruction of `n` bytes that does not halt completes: the PC is past it, the step reports
running (rules R26, R27, R104). -/
def completeRunning (n : Nat) (s : State) : Result := .next (s.endStep (s.pc + n) .running)

/-- An instruction of `n` bytes that halts completes: the PC is past it, the step reports halted, and
nothing else changes; the halt is not latched (rules R35, R104). -/
def completeHalted (n : Nat) (s : State) : Result := .next (s.endStep (s.pc + n) .halted)

/-- The PC is assigned and the step reports running (rule R160). -/
def completeAt (target : Nat) (s : State) : Result := .next (s.endStep target .running)

/-! ### Guard and fetch -/

/-- `GUARD_STRICT` of rule R7: the guard compares `pc > LEN` (the spec's decision D2; log entry 2). -/
def guardStrict : Bool := true

/-- The comparison of the bounds guard under either setting of `GUARD_STRICT` (rules R7, R101). -/
def guardFiresAt (strict : Bool) (len pc : Nat) : Bool :=
  if strict then decide (len < pc) else decide (len ≤ pc)

/-- Whether the bounds guard fires at the start of a step (rule R101). -/
def State.guardFires (s : State) : Bool := guardFiresAt guardStrict s.prog.len s.pc

/-- The guard's clean halt: nothing fetched, PC unchanged, no register changed (rules R101, R175). -/
def guardHalt (s : State) : Result := .next (s.endStep s.pc .halted)

/-- The instruction at the program counter, or the offset at which its fetch ran out of the program
(rules R102, R103, R105). -/
def State.fetchInstr (s : State) : Decoded := decodeFrom s.prog.byteAt s.pc

end Sys2Proof.Machine
end

