-- ==== Sys2Proof/Machine/Operands.lean ====
section
/-! DEFINITION. The operand forms: the register check, the widening of an immediate, and the three shapes
an instruction with a register destination has. All checks come before all reads, and the one write is
last (rules R58, R103). -/

namespace Sys2Proof.Machine

/-- `CheckReg(i)` (rule R107): the register a field names, or the fault; the index is not masked. -/
def withReg (field : Byte) (s : State) (k : Fin 32 → Result) : Result :=
  if h : field.toNat < 32 then k ⟨field.toNat, h⟩ else raiseFault (.registerOutOfRange field) s

/-- `IMM_EXTEND` of rule R7: zero extension (the spec's decision D3; log entry 3). -/
def immExtend : ImmExtend := .zero

/-- The widening of a 16-bit immediate under either setting of `IMM_EXTEND` (rules R12, R74). -/
def widenImm (mode : ImmExtend) (value : Half) : Word :=
  match mode with
  | .zero => value.setWidth 32
  | .sign => value.signExtend 32

/-- `imm_ext(v)` (rule R74). -/
def immExt (value : Half) : Word := widenImm immExtend value

/-- Format FRI, length 4: check `reg`, give it the value `f` makes of its content and the widened
immediate (rules R71, R103). -/
def regImmOp (f : Word → Word → Word) (reg : Byte) (value : Half) (s : State) : Result :=
  withReg reg s fun r => completeRunning 4 (s.setReg r (f (s.getReg r) (immExt value)))

/-- Format FRR, length 3: check `dest`, then `src`, give `dest` the value `f` makes of the two contents,
both read before the write (rules R71, R103, R153). -/
def regRegOp (f : Word → Word → Word) (dest src : Byte) (s : State) : Result :=
  withReg dest s fun d => withReg src s fun r =>
    completeRunning 3 (s.setReg d (f (s.getReg d) (s.getReg r)))

end Sys2Proof.Machine
end

