-- ==== Sys2Proof/Machine/Arith.lean ====
section
/-! DEFINITION. ADD_IMMEDIATE and SUBTRACT_IMMEDIATE (`43_arith_immediate.md`): arithmetic modulo `2^32`
(rule R142); `BitVec` addition and subtraction are `+_32` and `-_32` of rule R12. -/

namespace Sys2Proof.Machine

/-- ADD_IMMEDIATE (rule R140): `x[reg] <- x[reg] +_32 imm_ext(value)`. -/
def execAddImmediate (reg : Byte) (value : Half) (s : State) : Result :=
  regImmOp (fun a m => a + m) reg value s

/-- SUBTRACT_IMMEDIATE (rule R141): `x[reg] <- x[reg] -_32 imm_ext(value)`; the register is the minuend. -/
def execSubtractImmediate (reg : Byte) (value : Half) (s : State) : Result :=
  regImmOp (fun a m => a - m) reg value s

end Sys2Proof.Machine
end

