-- ==== Sys2Proof/Machine/Bitwise.lean ====
section
/-! DEFINITION. BITWISE_AND, BITWISE_OR and BITWISE_XOR (`44_bitwise.md`), bit by bit on all 32 bits
(rule R153). -/

namespace Sys2Proof.Machine

/-- BITWISE_AND (rule R150): `x[dest] <- x[dest] & x[src]`. -/
def execBitwiseAnd (dest src : Byte) (s : State) : Result := regRegOp (fun a b => a &&& b) dest src s

/-- BITWISE_OR (rule R151): `x[dest] <- x[dest] | x[src]`. -/
def execBitwiseOr (dest src : Byte) (s : State) : Result := regRegOp (fun a b => a ||| b) dest src s

/-- BITWISE_XOR (rule R152): `x[dest] <- x[dest] ^ x[src]`. -/
def execBitwiseXor (dest src : Byte) (s : State) : Result := regRegOp (fun a b => a ^^^ b) dest src s

end Sys2Proof.Machine
end

