-- ==== Sys2Proof/Machine/DataMovement.lean ====
section
/-! DEFINITION. LOAD_IMMEDIATE and MOVE (`42_data_movement.md`). -/

namespace Sys2Proof.Machine

/-- LOAD_IMMEDIATE (rule R130): `x[reg] <- imm_ext(value)`; the old content is not read. -/
def execLoadImmediate (reg : Byte) (value : Half) (s : State) : Result :=
  regImmOp (fun _ m => m) reg value s

/-- MOVE (rule R131): `x[dest] <- x[src]`. -/
def execMove (dest src : Byte) (s : State) : Result := regRegOp (fun _ b => b) dest src s

end Sys2Proof.Machine
end

