-- ==== Sys2Proof/Machine/Flags.lean ====
section
/-! DEFINITION. Flags: there are none. Rule R31: no instruction sets or reads a carry, overflow, zero or
sign indication, overflow is not detected or reported, and there is no conditional instruction to read
one; rule R32: there is no status register. So this file defines nothing, and `State` has no flag. -/
end

