-- ==== Sys2Proof/Machine/Jump.lean ====
section
/-! DEFINITION. JUMP (`45_jump.md`), the only control transfer. -/

namespace Sys2Proof.Machine

/-- JUMP (rule R160): `pc <- target`, absolute, zero-extended; the target is not checked. -/
def execJump (target : Byte) (s : State) : Result := completeAt target.toNat s

end Sys2Proof.Machine
end

