-- ==== Sys2Proof/Machine/System.lean ====
section
/-! DEFINITION. HALT and INVALID (`41_halt_invalid.md`): the two one-byte instructions that end a run
cleanly. -/

namespace Sys2Proof.Machine

/-- HALT (rule R120): no state change but the PC past the byte; the step reports halted. -/
def execHalt (s : State) : Result := completeHalted 1 s

/-- INVALID (rule R121): as HALT, whichever of the bytes `09` to `FF` it is; not a fault (rule R174). -/
def execInvalid (_byte : Byte) (s : State) : Result := completeHalted 1 s

end Sys2Proof.Machine
end

