-- ==== Sys2Proof/Machine/Dispatch.lean ====
section
/-! DEFINITION. The dispatch of rule R103: one arm per instruction, each one call of its meaning. The
state is the one at the start of the step, its PC the offset of the opcode byte. -/

namespace Sys2Proof.Machine

def exec (i : Instr) (s : State) : Host.Outcome State Fault Refusal :=
  match i with
  | .halt => Sys2Proof.Machine.execHalt s
  | .loadImmediate reg value => Sys2Proof.Machine.execLoadImmediate reg value s
  | .move dest src => Sys2Proof.Machine.execMove dest src s
  | .addImmediate reg value => Sys2Proof.Machine.execAddImmediate reg value s
  | .subtractImmediate reg value => Sys2Proof.Machine.execSubtractImmediate reg value s
  | .bitwiseAnd dest src => Sys2Proof.Machine.execBitwiseAnd dest src s
  | .bitwiseOr dest src => Sys2Proof.Machine.execBitwiseOr dest src s
  | .bitwiseXor dest src => Sys2Proof.Machine.execBitwiseXor dest src s
  | .jump target => Sys2Proof.Machine.execJump target s
  | .invalid byte => Sys2Proof.Machine.execInvalid byte s

end Sys2Proof.Machine
end

