-- ==== Sys2Proof/Machine/Step.lean ====
section
/-! DEFINITION. One step of the core (rules R100 to R104, R180), and the placing of an instruction where
the next step fetches it. -/

namespace Sys2Proof.Machine

/-- One decode/execute cycle. While FAULT is latched no step is performed (rule R180): the core stands
stopped by that fault. Else the guard (rule R101), the fetch (rules R102, R105), and the instruction
(rule R103). -/
def step (s : State) : Host.Outcome State Fault Refusal :=
  match s.faultLatch with
  | some f => .fault f
  | none =>
    if s.guardFires then guardHalt s
    else
      match s.fetchInstr with
      | .missing offset => raiseFault (.fetchOutOfRange offset) s
      | .instr i _ => exec i s

/-- `s` with an instruction placed at the program counter, where the next step fetches it, and no fault
latched, which would stop the step; a program comes into the buffer from outside the core (rules R30,
R203; log entry 11). -/
def State.withFetchWord (s : State) (nbits w : Nat) : State :=
  { s with prog := s.prog.putBytes s.pc (bytesOfBits nbits w), faultLatch := none }

end Sys2Proof.Machine
end

