-- ==== Sys2Proof/Machine/Command.lean ====
section
/-! DEFINITION. The host commands of rule R202: RESET, LOAD_PROGRAM, REG_WRITE, REG_READ, STEP, RUN and
the observation of PC and FAULT. A command that is not legal is refused and has no effect (rules R180,
R202; log entry 12). -/

namespace Sys2Proof.Machine

/-- The host's commands (rule R202). A register index is a number: one above 31 makes no command of the
interface and is refused (rule R204). -/
inductive Command where
  | reset
  | loadProgram (bytes : List Byte)
  | regWrite (index : Nat) (value : Word)
  | regRead (index : Nat)
  | step
  | run
  | observePc
  | observeFault
deriving DecidableEq, Repr

/-- What a command answers (rule R202). -/
inductive Reply where
  /-- The command was performed and returns nothing. -/
  | done
  /-- The content of a register. -/
  | word (v : Word)
  /-- What the step reported. -/
  | stepped (r : Report)
  /-- The program counter. -/
  | pc (a : Nat)
  /-- The code of the fault latch and the information it holds, none with code 0 (rules R33, R171). -/
  | fault (code : Nat) (info : Option Nat)
  /-- The command was not legal; nothing changed. -/
  | refused
  /-- The run has not ended within the fuel it was given (rule R109: a run may not end). -/
  | unfinished
deriving DecidableEq, Repr

/-- Where a run stands when its fuel is used up or it ends (rules R108, R109). -/
inductive RunState where
  | ended (s : State)
  | unfinished (s : State)
deriving DecidableEq, Repr

/-- RUN (rule R108) under `fuel` steps: steps repeat until one reports something other than running. The
fuel belongs to the executor of the model; the core has no step budget (rule R109). -/
def runFor : Nat → State → RunState
  | 0, s => .unfinished s
  | fuel + 1, s =>
    match step s with
    | .next t => if t.report = .running then runFor fuel t else .ended t
    | .fault _ => .ended s
    | .refused _ => .ended s

/-- RESET (rules R200, R201): every piece of the spec's state at its reset value. The count of free values
goes on, so that a later fault draws a fresh one (log entry 7). -/
def resetCommand (s : State) : State := { State.reset with freeCount := s.freeCount }

/-- LOAD_PROGRAM (rule R203): the buffer is replaced whole; PC, registers and FAULT stay. -/
def loadProgram (bytes : List Byte) (s : State) : State := { s with prog := Memory.ofBytes bytes }

/-- A command's effect and answer (rule R202). `progMax` is the parameter `PROG_MAX`, which the spec
leaves open (rule R7, decision D5; log entry 5); `fuel` bounds the steps of a RUN. -/
def command (progMax fuel : Nat) (c : Command) (s : State) : State × Reply :=
  match c with
  | .reset => (resetCommand s, .done)
  | .loadProgram bytes =>
    if s.faultLatch = none ∧ bytes.length ≤ progMax then (loadProgram bytes s, .done) else (s, .refused)
  | .regWrite index value =>
    if h : s.faultLatch = none ∧ index < 32 then (s.setReg ⟨index, h.2⟩ value, .done) else (s, .refused)
  | .regRead index => if h : index < 32 then (s, .word (s.getReg ⟨index, h⟩)) else (s, .refused)
  | .step =>
    match step s with
    | .next t => (t, .stepped t.report)
    | .fault _ => (s, .refused)
    | .refused _ => (s, .refused)
  | .run =>
    if s.faultLatch = none then
      match runFor fuel s with
      | .ended t => (t, .done)
      | .unfinished t => (t, .unfinished)
    else (s, .refused)
  | .observePc => (s, .pc s.pc)
  | .observeFault => (s, .fault (faultCode s.faultLatch) (faultInfo s.faultLatch))

end Sys2Proof.Machine
end

