-- ==== Sys2Proof/Safety.lean ====
section
/-! DEFINITION. What claims say of a state, of an instruction and of a run: no fault latched, the
registers an instruction reads and writes (rule R23), the invariant every step and command keeps, the
ways a run ends (rule R111). -/

namespace Sys2Proof.Machine

/-- No fault is latched: the core may step (rules R100, R180). -/
abbrev State.ready (s : State) : Prop := s.faultLatch = none

/-- The register fields an instruction reads, the second column of rule R23's table. -/
def readFields : Instr → List Byte
  | .halt => []
  | .loadImmediate _ _ => []
  | .move _ src => [src]
  | .addImmediate reg _ => [reg]
  | .subtractImmediate reg _ => [reg]
  | .bitwiseAnd dest src => [dest, src]
  | .bitwiseOr dest src => [dest, src]
  | .bitwiseXor dest src => [dest, src]
  | .jump _ => []
  | .invalid _ => []

/-- The register field an instruction writes, the third column of rule R23's table. -/
def writtenField : Instr → Option Byte
  | .halt => none
  | .loadImmediate reg _ => some reg
  | .move dest _ => some dest
  | .addImmediate reg _ => some reg
  | .subtractImmediate reg _ => some reg
  | .bitwiseAnd dest _ => some dest
  | .bitwiseOr dest _ => some dest
  | .bitwiseXor dest _ => some dest
  | .jump _ => none
  | .invalid _ => none

/-- Every register field of the instruction names a register (rules R78, R107). -/
def fieldsInRange (i : Instr) : Prop := ∀ f ∈ i.regFields, f.toNat < 32

/-- The program buffer is the same after as before: its length, and every offset reads as it did. -/
def KeepsProgram (s t : State) : Prop :=
  t.prog = s.prog ∧ ∀ a, t.prog.byteAt a = s.prog.byteAt a

/-- Everything but the registers, the PC and the report is the same after as before. -/
def KeepsRest (s t : State) : Prop :=
  KeepsProgram s t ∧ t.faultLatch = s.faultLatch ∧ t.freeCount = s.freeCount

/-- Every register but `d` is the same after as before. -/
def KeepsOtherRegs (d : Fin 32) (s t : State) : Prop := ∀ r, r ≠ d → t.getReg r = s.getReg r

/-- `z` is the signed reading of some 32-bit pattern (rule R142). -/
def InSignedRange (z : Int) : Prop := -2 ^ 31 ≤ z ∧ z ≤ 2 ^ 31 - 1

/-- `w` is the exact result `z` if that is in the signed range, and otherwise `z` plus or minus `2^32`,
whichever is in it (rule R142). -/
def WrapsTo (z w : Int) : Prop :=
  InSignedRange w ∧ (w = z ∨ (¬ InSignedRange z ∧ (w = z + 2 ^ 32 ∨ w = z - 2 ^ 32)))

/-- The bound of rule R28 with `bound` a length that no program loaded exceeds (its `LEN'`): the buffer is
no longer than `bound`, and while no fault is latched the PC is at most `max(bound, 255)`. After a fault
the PC is unspecified (rule R179). -/
def PcBounded (bound : Nat) (s : State) : Prop :=
  s.prog.len ≤ bound ∧ (s.ready → s.pc ≤ max bound 255)

/-- The machine's invariant: the buffer is in canonical form (log entry 10), the PC is bounded (rule R28),
and the last report is a fault exactly while that fault is latched (rules R33, R178). -/
def MachineInv (bound : Nat) (s : State) : Prop :=
  s.prog.wf = true ∧ PcBounded bound s ∧ ∀ f, s.faultLatch = some f ↔ s.report = .faulted f

/-- From `s`, `k` steps lead to `u` and each of them reports running (rule R108). -/
def RunsOn (k : Nat) (s u : State) : Prop :=
  core.run k s = .next u ∧ ∀ j v, 0 < j → j ≤ k → core.run j s = .next v → v.report = .running

/-- The run from `s` ends cleanly in `t` (rule R111): its last step reports halted. -/
def EndsCleanly (s t : State) : Prop := ∃ fuel, runFor fuel s = .ended t ∧ t.report = .halted

/-- The run from `s` ends in a fault, with `f` latched in `t` (rule R111). -/
def EndsInFault (s t : State) (f : Fault) : Prop :=
  ∃ fuel, runFor fuel s = .ended t ∧ t.report = .faulted f ∧ t.faultLatch = some f

/-- The run from `s` does not end (rules R109, R111). -/
def NeverEnds (s : State) : Prop := ∀ fuel, ∃ t, runFor fuel s = .unfinished t

end Sys2Proof.Machine
end

