-- ==== Sys2Proof/Certificates/Slice0/Obligations.lean ====
section
/-! DEFINITION. The statements for the provers, from the spec's numbered rules. A docstring that names a
log entry says that the statement rests on a decision of the spec (`92_eei_decisions.md`) or on a choice
of the model's. -/

open Sys2Proof Sys2Proof.Machine

/-! ### Decoding and encoding (`30_encoding.md`) -/

/-- A few words written out from the encodings of rules R71 and R76 decode to their instructions. The
opcode numbers are the spec's decision D1 (log entry 1). -/
def Obligations.SampleWordsDecode : Prop :=
  decode [0x00#8] = .instr .halt 1 ∧
  decode [0x01#8, 0x04#8, 0x02#8, 0x00#8] = .instr (.loadImmediate 4#8 512#16) 4 ∧
  decode [0x02#8, 0x02#8, 0x01#8] = .instr (.move 2#8 1#8) 3 ∧
  decode [0x03#8, 0x01#8, 0x00#8, 0x07#8] = .instr (.addImmediate 1#8 7#16) 4 ∧
  decode [0x04#8, 0x01#8, 0x7F#8, 0x7F#8] = .instr (.subtractImmediate 1#8 0x7F7F#16) 4 ∧
  decode [0x05#8, 0x01#8, 0x02#8] = .instr (.bitwiseAnd 1#8 2#8) 3 ∧
  decode [0x08#8, 0x06#8] = .instr (.jump 6#8) 2 ∧
  decode [0xFF#8] = .instr (.invalid 0xFF#8) 1

/-- The formats of rule R71 with the operand assembly of rules R73 and R106: bytes in layout order, 8-bit
operands as they stand, the 16-bit operand with its first byte the more significant, each byte fetched
on its own. The opcode byte is any byte with the tag, so no opcode number is assumed. -/
def Obligations.OperandsAreReadAsLaidOut : Prop :=
  ∀ (b x y z : Byte) (rest : List Byte),
    (decodeOpcode b = .halt → decode (b :: rest) = .instr .halt 1) ∧
    (decodeOpcode b = .invalid → decode (b :: rest) = .instr (.invalid b) 1) ∧
    (decodeOpcode b = .jump →
      decode (b :: x :: rest) = .instr (.jump x) 2 ∧ decode [b] = .missing 1) ∧
    (∀ tag mk, (tag, mk) ∈ [(Opcode.move, Instr.move), (.bitwiseAnd, .bitwiseAnd),
        (.bitwiseOr, .bitwiseOr), (.bitwiseXor, .bitwiseXor)] → decodeOpcode b = tag →
      decode (b :: x :: y :: rest) = .instr (mk x y) 3 ∧
      decode [b] = .missing 1 ∧ decode [b, x] = .missing 2) ∧
    (∀ tag mk, (tag, mk) ∈ [(Opcode.loadImmediate, Instr.loadImmediate),
        (.addImmediate, .addImmediate), (.subtractImmediate, .subtractImmediate)] →
        decodeOpcode b = tag →
      (∃ value : Half, decode (b :: x :: y :: z :: rest) = .instr (mk x value) 4 ∧
        value.toNat = 256 * y.toNat + z.toNat) ∧
      decode [b] = .missing 1 ∧ decode [b, x] = .missing 2 ∧ decode [b, x, y] = .missing 3)

/-- The length of an instruction is decided by its opcode byte alone, and an instruction cut short by the
end of the bytes is not shorter: its missing byte is where the fetch fails (rule R72). -/
def Obligations.OpcodeByteDecidesLength : Prop :=
  (Opcode.halt.length = 1 ∧ Opcode.invalid.length = 1 ∧ Opcode.jump.length = 2 ∧
    Opcode.move.length = 3 ∧ Opcode.bitwiseAnd.length = 3 ∧ Opcode.bitwiseOr.length = 3 ∧
    Opcode.bitwiseXor.length = 3 ∧ Opcode.loadImmediate.length = 4 ∧
    Opcode.addImmediate.length = 4 ∧ Opcode.subtractImmediate.length = 4) ∧
  ∀ (b : Byte) (rest : List Byte),
    if (decodeOpcode b).length ≤ (b :: rest).length then
      ∃ i, decode (b :: rest) = .instr i (decodeOpcode b).length ∧ i.opcode = decodeOpcode b
    else decode (b :: rest) = .missing (b :: rest).length

/-- The opcode map of rule R76, and that every other byte is INVALID (rule R77). The numbers are the
spec's decision D1 (log entry 1). -/
def Obligations.OpcodeMapIsTheTable : Prop :=
  ∀ b : Byte,
    (decodeOpcode b = .halt ↔ b.toNat = 0) ∧ (decodeOpcode b = .loadImmediate ↔ b.toNat = 1) ∧
    (decodeOpcode b = .move ↔ b.toNat = 2) ∧ (decodeOpcode b = .addImmediate ↔ b.toNat = 3) ∧
    (decodeOpcode b = .subtractImmediate ↔ b.toNat = 4) ∧ (decodeOpcode b = .bitwiseAnd ↔ b.toNat = 5) ∧
    (decodeOpcode b = .bitwiseOr ↔ b.toNat = 6) ∧ (decodeOpcode b = .bitwiseXor ↔ b.toNat = 7) ∧
    (decodeOpcode b = .jump ↔ b.toNat = 8) ∧ (decodeOpcode b = .invalid ↔ 9 ≤ b.toNat)

/-- Decoding the encoding of a well-formed instruction gives it back, with every operand at every value,
whatever bytes follow. -/
def Obligations.DecodeOfEncodeIsTheInstruction : Prop :=
  ∀ (i : Instr) (rest : List Byte), i.wellFormed = true →
    decode (encode i ++ rest) = .instr i (encode i).length

/-- What the decoder reads is well-formed, takes as many bytes as its tag says, and encodes to exactly the
bytes read: each byte string has one reading and no bit of it is dropped. -/
def Obligations.EncodeOfDecodeIsTheBytes : Prop :=
  ∀ (bytes : List Byte) (i : Instr) (n : Nat), decode bytes = .instr i n →
    i.wellFormed = true ∧ n = i.length ∧ bytes.take n = encode i

/-- Fetching byte by byte from the program buffer at the PC, each fetch with its own bounds check (rules
R102, R105, R106), reads what decoding the buffer's bytes from the PC on reads. -/
def Obligations.FetchReadsTheBytesAtThePc : Prop :=
  ∀ s : State, s.pc ≤ s.prog.len →
    s.fetchInstr =
      match decode (s.prog.toBytes.drop s.pc) with
      | .instr i n => .instr i (s.pc + n)
      | .missing n => .missing (s.pc + n)

/-! ### The step (`40_execution_cycle.md`) -/

/-- When the bytes at the program counter decode to an instruction (well-formed, as every decoded one is),
and no fault is latched, the step is that instruction's execution at that state: nothing is added around
`exec`, which itself moves the PC past the instruction's bytes. -/
def Obligations.StepRunsTheDecodedInstruction : Prop :=
  ∀ (s : State) (i : Instr) (n : Nat), s.ready → i.wellFormed = true →
    decode (s.prog.toBytes.drop s.pc) = .instr i n → step s = exec i s

/-- A step that begins with the PC beyond the end of the program halts without side effects (rule R175). -/
def Obligations.GuardHaltsWithoutSideEffects : Prop :=
  ∀ s : State, s.ready → s.prog.len < s.pc →
    ∃ t, step s = .next t ∧ t.report = .halted ∧ t.faultLatch = none ∧ t.pc = s.pc ∧ t.regs = s.regs ∧
      KeepsRest s t

/-- The guard is strict (the spec's decision D2; log entry 2): a step that begins with the PC at the end of
the program faults with FetchOutOfRange(LEN), registers and program as they were; and after a guard halt
every further step guard-halts again. -/
def Obligations.GuardIsStrict : Prop :=
  (∀ s : State, s.ready → s.pc = s.prog.len →
    ∃ t, step s = .next t ∧ t.faultLatch = some (.fetchOutOfRange s.prog.len) ∧ t.regs = s.regs ∧
      KeepsProgram s t) ∧
  (∀ s t : State, s.ready → s.prog.len < s.pc → step s = .next t → step t = .next t)

/-- A step reports halted in exactly three cases, HALT, INVALID and the guard, and running for the eight
other opcodes where no fault ends it (rule R104). -/
def Obligations.ReportIsHaltedInExactlyThreeCases : Prop :=
  ∀ s t : State, step s = .next t →
    (t.report = .halted ↔
      s.prog.len < s.pc ∨
        (s.pc ≤ s.prog.len ∧
          ∃ i n, s.fetchInstr = .instr i n ∧ (i.opcode = .halt ∨ i.opcode = .invalid))) ∧
    (t.report = .running ↔
      s.pc ≤ s.prog.len ∧ t.ready ∧
        ∃ i n, s.fetchInstr = .instr i n ∧
          i.opcode ∈ [Opcode.loadImmediate, .move, .addImmediate, .subtractImmediate, .bitwiseAnd,
            .bitwiseOr, .bitwiseXor, .jump])

/-- How each step moves the PC, the table of rule R27: unchanged by the guard, one to four bytes on by the
tag, the target for JUMP. The spec marks the table as derived. -/
def Obligations.PcAdvanceTable : Prop :=
  ∀ s t : State, step s = .next t → t.ready →
    (s.prog.len < s.pc ∧ t.pc = s.pc) ∨
    (s.pc ≤ s.prog.len ∧ ∃ i n, s.fetchInstr = .instr i n ∧
      t.pc = match i with
        | .halt => s.pc + 1
        | .invalid _ => s.pc + 1
        | .loadImmediate _ _ => s.pc + 4
        | .move _ _ => s.pc + 3
        | .addImmediate _ _ => s.pc + 4
        | .subtractImmediate _ _ => s.pc + 4
        | .bitwiseAnd _ _ => s.pc + 3
        | .bitwiseOr _ _ => s.pc + 3
        | .bitwiseXor _ _ => s.pc + 3
        | .jump target => target.toNat)

/-- What a step never does (rule R112): it leaves the program buffer and its length alone, writes at most
one register, never clears FAULT (with a fault latched there is no step), depends on no byte other than those of the instruction at the PC, and
takes any jump target. -/
def Obligations.StepNeverOversteps : Prop :=
  (∀ s t : State, step s = .next t →
    KeepsProgram s t ∧ t.prog.len = s.prog.len ∧
    ∃ d : Fin 32, KeepsOtherRegs d s t) ∧
  (∀ (s t : State) (f : Fault), s.faultLatch = some f → step s ≠ .next t) ∧
  (∀ (s : State) (i : Instr) (next : Nat) (p : Memory), s.fetchInstr = .instr i next → p.len = s.prog.len →
    (∀ a, s.pc ≤ a → a < next → p.byteAt a = s.prog.byteAt a) →
    ∀ t, step s = .next t → step { s with prog := p } = .next { t with prog := p }) ∧
  (∀ (s : State) (target : Byte) (next : Nat), s.ready → s.pc ≤ s.prog.len →
    s.fetchInstr = .instr (.jump target) next →
    ∃ t, step s = .next t ∧ t.pc = target.toNat ∧ t.report = .running ∧ t.ready)

/-- The outcome of a step is a function of PC, registers and program alone, and a run of the same program
from the same PC and registers ends with the same registers and the same report (rule R9). The PC after a
fault is excepted (rule R179). -/
def Obligations.OutcomeIsAFunctionOfPcRegistersProgram : Prop :=
  ∀ s s' : State, s.ready → s'.ready → s'.pc = s.pc → s'.regs = s.regs → s'.prog = s.prog →
    (∃ t t', step s = .next t ∧ step s' = .next t' ∧ t'.report = t.report ∧ t'.regs = t.regs ∧
      t'.prog = t.prog ∧ t'.faultLatch = t.faultLatch ∧ (t.ready → t'.pc = t.pc)) ∧
    (∀ fuel t, runFor fuel s = .ended t →
      ∃ t', runFor fuel s' = .ended t' ∧ t'.report = t.report ∧ t'.regs = t.regs ∧ t'.prog = t.prog ∧
        t'.faultLatch = t.faultLatch ∧ (t.ready → t'.pc = t.pc))

/-! ### Instructions -/

/-- HALT (`41_halt_invalid.md`): it completes with the PC one byte on, no other change, and a report that
is not latched: the next step starts at the byte after it, or faults if the program ends there (guard
strict, log entry 2). -/
def Obligations.HaltOnlyMovesThePc : Prop :=
  ∀ s : State, ∃ t, exec .halt s = .next t ∧ t.pc = s.pc + 1 ∧ t.report = .halted ∧ t.regs = s.regs ∧
    KeepsRest s t ∧
    (s.ready → s.pc + 1 = s.prog.len →
      ∃ u, step t = .next u ∧ u.faultLatch = some (.fetchOutOfRange s.prog.len)) ∧
    (s.ready → ∀ i n, s.pc + 1 < s.prog.len → decodeFrom s.prog.byteAt (s.pc + 1) = .instr i n →
      step t = exec i t)

/-- INVALID is no exception: whichever byte it is, it does exactly what HALT does, sets no fault and
records no cause (rule R174). -/
def Obligations.InvalidIsIndistinguishableFromHalt : Prop :=
  ∀ (s : State) (byte : Byte), exec (.invalid byte) s = exec .halt s ∧
    ∃ t, exec (.invalid byte) s = .next t ∧ t.report = .halted ∧ t.faultLatch = s.faultLatch ∧
      t.pc = s.pc + 1 ∧ t.regs = s.regs ∧ KeepsRest s t

/-- LOAD_IMMEDIATE (`42_data_movement.md`): the register holds the immediate's own value, which is the
spec's zero extension (decision D3; log entry 3). -/
def Obligations.LoadImmediateLoadsTheValue : Prop :=
  ∀ (s : State) (reg : Byte) (value : Half) (h : reg.toNat < 32),
    ∃ t, exec (.loadImmediate reg value) s = .next t ∧
      (t.getReg ⟨reg.toNat, h⟩).toNat = value.toNat ∧ KeepsOtherRegs ⟨reg.toNat, h⟩ s t ∧
      t.pc = s.pc + 4 ∧ t.report = .running ∧ KeepsRest s t

/-- MOVE (`42_data_movement.md`): all 32 bits are copied, source and destination any two registers or the
same one. -/
def Obligations.MoveCopiesTheRegister : Prop :=
  ∀ (s : State) (dest src : Byte) (hd : dest.toNat < 32) (hs : src.toNat < 32),
    ∃ t, exec (.move dest src) s = .next t ∧
      t.getReg ⟨dest.toNat, hd⟩ = s.getReg ⟨src.toNat, hs⟩ ∧ KeepsOtherRegs ⟨dest.toNat, hd⟩ s t ∧
      t.pc = s.pc + 3 ∧ t.report = .running ∧ KeepsRest s t

/-- ADD_IMMEDIATE and SUBTRACT_IMMEDIATE (`43_arith_immediate.md`): the sum and the difference with the
immediate's own value, modulo `2^32`. The immediate is zero-extended (decision D3; log entry 3). -/
def Obligations.AddAndSubtractImmediateWrap : Prop :=
  ∀ (s : State) (reg : Byte) (value : Half) (h : reg.toNat < 32),
    (∃ t, exec (.addImmediate reg value) s = .next t ∧
      (t.getReg ⟨reg.toNat, h⟩).toNat = ((s.getReg ⟨reg.toNat, h⟩).toNat + value.toNat) % 2 ^ 32 ∧
      KeepsOtherRegs ⟨reg.toNat, h⟩ s t ∧ t.pc = s.pc + 4 ∧ t.report = .running ∧ KeepsRest s t) ∧
    (∃ t, exec (.subtractImmediate reg value) s = .next t ∧
      (t.getReg ⟨reg.toNat, h⟩).toNat =
        ((s.getReg ⟨reg.toNat, h⟩).toNat + 2 ^ 32 - value.toNat) % 2 ^ 32 ∧
      KeepsOtherRegs ⟨reg.toNat, h⟩ s t ∧ t.pc = s.pc + 4 ∧ t.report = .running ∧ KeepsRest s t)

/-- The arithmetic laws (rule R142), with `m = imm_ext(value)` whichever widening that is: results modulo
`2^32`, the signed reading of a result is the exact one or that plus or minus `2^32`, each instruction
undoes the other. Overflow sets nothing and is seen in the wrapped result alone: whatever the operands, the
other registers stay, the PC is 4 on, the report is running, the program and FAULT stay. -/
def Obligations.ArithmeticLaws : Prop :=
  ∀ (s : State) (reg : Byte) (value : Half) (h : reg.toNat < 32),
    ∃ ta ts, exec (.addImmediate reg value) s = .next ta ∧ exec (.subtractImmediate reg value) s = .next ts ∧
      (ta.getReg ⟨reg.toNat, h⟩).toNat =
        ((s.getReg ⟨reg.toNat, h⟩).toNat + (immExt value).toNat) % 2 ^ 32 ∧
      (ts.getReg ⟨reg.toNat, h⟩).toNat =
        ((s.getReg ⟨reg.toNat, h⟩).toNat + 2 ^ 32 - (immExt value).toNat) % 2 ^ 32 ∧
      WrapsTo (signed32 (s.getReg ⟨reg.toNat, h⟩) + signed32 (immExt value))
        (signed32 (ta.getReg ⟨reg.toNat, h⟩)) ∧
      WrapsTo (signed32 (s.getReg ⟨reg.toNat, h⟩) - signed32 (immExt value))
        (signed32 (ts.getReg ⟨reg.toNat, h⟩)) ∧
      (∀ t ∈ [ta, ts], KeepsOtherRegs ⟨reg.toNat, h⟩ s t ∧ t.pc = s.pc + 4 ∧ t.report = .running ∧
        KeepsRest s t) ∧
      (∃ u, exec (.subtractImmediate reg value) ta = .next u ∧
        u.getReg ⟨reg.toNat, h⟩ = s.getReg ⟨reg.toNat, h⟩) ∧
      (∃ u, exec (.addImmediate reg value) ts = .next u ∧
        u.getReg ⟨reg.toNat, h⟩ = s.getReg ⟨reg.toNat, h⟩)

/-- BITWISE_AND, BITWISE_OR and BITWISE_XOR (`44_bitwise.md`): bit by bit over all 32 bits of the two
registers as they were before the write, source and destination any two registers or the same one. -/
def Obligations.BitwiseInstructionsActBitByBit : Prop :=
  ∀ (s : State) (dest src : Byte) (hd : dest.toNat < 32) (hs : src.toNat < 32),
    (∃ t, exec (.bitwiseAnd dest src) s = .next t ∧
      (∀ k < 32, (t.getReg ⟨dest.toNat, hd⟩).getLsbD k =
        ((s.getReg ⟨dest.toNat, hd⟩).getLsbD k && (s.getReg ⟨src.toNat, hs⟩).getLsbD k)) ∧
      KeepsOtherRegs ⟨dest.toNat, hd⟩ s t ∧ t.pc = s.pc + 3 ∧ t.report = .running ∧ KeepsRest s t) ∧
    (∃ t, exec (.bitwiseOr dest src) s = .next t ∧
      (∀ k < 32, (t.getReg ⟨dest.toNat, hd⟩).getLsbD k =
        ((s.getReg ⟨dest.toNat, hd⟩).getLsbD k || (s.getReg ⟨src.toNat, hs⟩).getLsbD k)) ∧
      KeepsOtherRegs ⟨dest.toNat, hd⟩ s t ∧ t.pc = s.pc + 3 ∧ t.report = .running ∧ KeepsRest s t) ∧
    (∃ t, exec (.bitwiseXor dest src) s = .next t ∧
      (∀ k < 32, (t.getReg ⟨dest.toNat, hd⟩).getLsbD k =
        ((s.getReg ⟨dest.toNat, hd⟩).getLsbD k != (s.getReg ⟨src.toNat, hs⟩).getLsbD k)) ∧
      KeepsOtherRegs ⟨dest.toNat, hd⟩ s t ∧ t.pc = s.pc + 3 ∧ t.report = .running ∧ KeepsRest s t)

/-- The bitwise laws for negative and equal operands (rule R153, which the spec marks as derived): with
`x[src] = -1` AND keeps `dest`, OR gives `-1`, XOR gives `-v - 1` as a signed number; with `dest = src`
AND and OR change no register and XOR gives 0. -/
def Obligations.BitwiseLaws : Prop :=
  (∀ (s t : State) (dest src : Byte) (hd : dest.toNat < 32) (hs : src.toNat < 32),
    signed32 (s.getReg ⟨src.toNat, hs⟩) = -1 →
    (exec (.bitwiseAnd dest src) s = .next t → t.getReg ⟨dest.toNat, hd⟩ = s.getReg ⟨dest.toNat, hd⟩) ∧
    (exec (.bitwiseOr dest src) s = .next t → signed32 (t.getReg ⟨dest.toNat, hd⟩) = -1) ∧
    (exec (.bitwiseXor dest src) s = .next t →
      signed32 (t.getReg ⟨dest.toNat, hd⟩) = -signed32 (s.getReg ⟨dest.toNat, hd⟩) - 1)) ∧
  (∀ (s t : State) (reg : Byte) (h : reg.toNat < 32),
    (exec (.bitwiseAnd reg reg) s = .next t → t.regs = s.regs) ∧
    (exec (.bitwiseOr reg reg) s = .next t → t.regs = s.regs) ∧
    (exec (.bitwiseXor reg reg) s = .next t → signed32 (t.getReg ⟨reg.toNat, h⟩) = 0))

/-- JUMP (`45_jump.md`, rule R160): the PC is the target whatever it was, nothing else changes, the old PC
is nowhere kept (the outcome does not depend on it), a JUMP to its own offset never ends, and a JUMP that is
the last byte of the program faults. -/
def Obligations.JumpAssignsThePc : Prop :=
  (∀ (s : State) (target : Byte),
    ∃ t, exec (.jump target) s = .next t ∧ t.pc = target.toNat ∧ t.report = .running ∧ t.regs = s.regs ∧
      KeepsRest s t ∧ ∀ p, exec (.jump target) { s with pc := p } = .next t) ∧
  (∀ (s : State) (target : Byte) (n : Nat), s.ready → s.pc ≤ s.prog.len →
    s.fetchInstr = .instr (.jump target) n → target.toNat = s.pc → NeverEnds s) ∧
  (∀ (s : State) (b : Byte), s.ready → s.pc + 1 = s.prog.len → s.prog.byteAt s.pc = some b →
    decodeOpcode b = .jump →
    ∃ t, step s = .next t ∧ t.faultLatch = some (.fetchOutOfRange s.prog.len) ∧ t.regs = s.regs)

/-- The step after a JUMP (rule R161): a target inside the program is decoded as an opcode, wherever in an
instruction it lies; the end of the program faults; a target beyond it halts with the PC left there. The
row at `target = LEN` is the spec's strict guard (decision D2; log entry 2). -/
def Obligations.StepAfterJumpByTarget : Prop :=
  ∀ (s t : State) (target : Byte), s.ready → exec (.jump target) s = .next t →
    (target.toNat < s.prog.len →
      ∃ b, s.prog.byteAt target.toNat = some b ∧
        ((decodeOpcode b).length ≤ s.prog.len - target.toNat →
          ∃ i n, decodeFrom s.prog.byteAt target.toNat = .instr i n ∧ i.opcode = decodeOpcode b ∧
            step t = exec i t)) ∧
    (target.toNat = s.prog.len →
      ∃ u, step t = .next u ∧ u.faultLatch = some (.fetchOutOfRange s.prog.len) ∧ u.regs = s.regs) ∧
    (s.prog.len < target.toNat →
      ∃ u, step t = .next u ∧ u.report = .halted ∧ u.ready ∧ u.pc = target.toNat ∧ u.regs = s.regs)

/-- Every pattern of the `value` field and of the `target` field is legal (rule R79): with the register
field in range the three immediate instructions complete for every value, and JUMP completes for every
target, at or beyond the end of the program too. -/
def Obligations.EveryValueAndTargetIsLegal : Prop :=
  (∀ (s : State) (reg : Byte) (value : Half) (i : Instr), s.ready → reg.toNat < 32 →
    i ∈ [Instr.loadImmediate reg value, .addImmediate reg value, .subtractImmediate reg value] →
    i.wellFormed = true ∧ ∃ t, exec i s = .next t ∧ t.report = .running ∧ t.ready) ∧
  (∀ (s : State) (target : Byte), s.ready →
    (Instr.jump target).wellFormed = true ∧
    ∃ t, exec (.jump target) s = .next t ∧ t.report = .running ∧ t.ready ∧ t.pc = target.toNat)

/-- Which registers an instruction reads and writes (rule R23): a register that changes is the one its
written field names; and two states that agree on the registers its read fields name give the written
register the same value. -/
def Obligations.RegistersReadAndWritten : Prop :=
  (∀ (i : Instr) (s t : State) (r : Fin 32), exec i s = .next t → t.getReg r ≠ s.getReg r →
    ∃ f, writtenField i = some f ∧ i.regFields.head? = some f ∧ f.toNat = r.val) ∧
  (∀ (i : Instr) (s s' t t' : State) (f : Byte) (r : Fin 32),
    fieldsInRange i → writtenField i = some f → f.toNat = r.val →
    (∀ q : Fin 32, (∃ g ∈ readFields i, g.toNat = q.val) → s'.getReg q = s.getReg q) →
    exec i s = .next t → exec i s' = .next t' → t'.getReg r = t.getReg r)

/-- The frame of all ten instructions, HALT, LOAD_IMMEDIATE, MOVE, ADD_IMMEDIATE, SUBTRACT_IMMEDIATE,
BITWISE_AND, BITWISE_OR, BITWISE_XOR, JUMP and INVALID: none stores to memory, so every offset of the
program reads as before; no register changes but the one the written field names, none at all where a
register field is out of range; and with the fields in range the fault latch stays as it was. -/
def Obligations.InstructionFrame : Prop :=
  ∀ (i : Instr) (s t : State), exec i s = .next t →
    KeepsProgram s t ∧
    (∀ r : Fin 32, (∀ f, writtenField i = some f → f.toNat ≠ r.val) → t.getReg r = s.getReg r) ∧
    (fieldsInRange i → t.faultLatch = s.faultLatch ∧ t.freeCount = s.freeCount) ∧
    (¬ fieldsInRange i → t.regs = s.regs)

/-! ### Faults (`60_exceptions.md`) -/

/-- The register check (rules R78, R107): a register field of 32 or more, of a source or a destination, is
not reduced to a register: the instruction faults with RegisterOutOfRange of such a field and writes no
register; with every field in range no such fault is raised. -/
def Obligations.EveryRegisterFieldIsChecked : Prop :=
  (∀ (i : Instr) (s : State), (∃ f ∈ i.regFields, 32 ≤ f.toNat) →
    ∃ t g, exec i s = .next t ∧ g ∈ i.regFields ∧ 32 ≤ g.toNat ∧
      t.faultLatch = some (.registerOutOfRange g) ∧ t.report = .faulted (.registerOutOfRange g) ∧
      t.regs = s.regs) ∧
  (∀ (i : Instr) (s : State), (∀ f ∈ i.regFields, f.toNat < 32) →
    ∃ t, exec i s = .next t ∧ t.faultLatch = s.faultLatch ∧ ∀ g, t.report ≠ .faulted g)

/-- Which fault a step reports (rules R55, R171, R177): a fetch fault, always at the end of the program,
before a register fault; then the first register field out of range, in operand order; else none. The
order is the spec's decision D8 (log entry 9). -/
def Obligations.FaultPriority : Prop :=
  ∀ s t : State, step s = .next t → s.pc ≤ s.prog.len →
    t.faultLatch =
      match s.fetchInstr with
      | .missing _ => some (.fetchOutOfRange s.prog.len)
      | .instr i _ => (i.regFields.find? (fun f => decide (32 ≤ f.toNat))).map .registerOutOfRange

/-- A fetch fails exactly when the instruction the opcode byte asks for does not fit before the end of the
program, a byte at the PC missing included (rules R105, R173). -/
def Obligations.FetchFailsExactlyWhenTruncated : Prop :=
  ∀ s : State, s.ready → s.pc ≤ s.prog.len →
    ((∃ t, step s = .next t ∧ t.faultLatch = some (.fetchOutOfRange s.prog.len)) ↔
      s.pc = s.prog.len ∨
        ∃ b, s.prog.byteAt s.pc = some b ∧ s.prog.len < s.pc + (decodeOpcode b).length)

/-- What a fault leaves (rules R178, R179): a step that latches a fault began without one, leaves the
registers and the program as they were and reports that fault; the core then performs no step. The latch
is the spec's decision D6 (log entry 6); the PC is left out, since it is unspecified (log entry 7). -/
def Obligations.FaultIsPreciseAndFinal : Prop :=
  ∀ (s t : State) (f : Fault), step s = .next t → t.faultLatch = some f →
    s.ready ∧ t.regs = s.regs ∧ KeepsProgram s t ∧ t.report = .faulted f ∧ step t = .fault f

/-- A step without a latched fault always answers a next state: the core never stops in the middle
(rules R100, R180), and with one it performs no step. -/
def Obligations.StepAnswersExactlyWhenReady : Prop :=
  (∀ s : State, s.ready ↔ ∃ t, step s = .next t) ∧
  (∀ (s : State) (f : Fault), s.faultLatch = some f ↔ step s = .fault f)

/-! ### Reset and host commands (`70_reset_and_hazards.md`) -/

/-- RESET from any state, after a fault too, leaves every register 0, the PC 0, the program empty and FAULT
none (rule R200). That nothing else makes a stopped core ready again is WhoWritesEachPieceOfState. -/
def Obligations.ResetCommandRestoresEverything : Prop :=
  ∀ (progMax fuel : Nat) (s : State), ∃ t, command progMax fuel .reset s = (t, .done) ∧
    (∀ r, t.getReg r = 0#32) ∧ t.pc = 0 ∧ t.prog.toBytes = [] ∧ t.prog.len = 0 ∧ t.faultLatch = none

/-- The state after reset meets the invariant, with every register 0; a step there, before any program is
loaded, faults with FetchOutOfRange(0) (rule R36; guard by decision D2, log entry 2). -/
def Obligations.ResetMeetsInvariant : Prop :=
  (∀ bound, MachineInv bound State.reset) ∧ (∀ r, State.reset.getReg r = 0#32) ∧ State.reset.pc = 0 ∧
  ∃ t, step State.reset = .next t ∧ t.faultLatch = some (.fetchOutOfRange 0)

/-- LOAD_PROGRAM (rule R203): the buffer holds exactly the bytes, whatever it held, in canonical form; PC,
registers and FAULT stay; a load after a fault, or longer than `PROG_MAX`, is refused without effect. The
empty program is the spec's decision D18, `PROG_MAX` is open (D5; log entry 5). -/
def Obligations.LoadProgramReplacesTheBuffer : Prop :=
  ∀ (progMax fuel : Nat) (bytes : List Byte) (s : State),
    (s.ready → bytes.length ≤ progMax →
      ∃ t, command progMax fuel (.loadProgram bytes) s = (t, .done) ∧ t.prog.toBytes = bytes ∧
        t.prog.len = bytes.length ∧ (∀ a, t.prog.byteAt a = bytes[a]?) ∧ t.prog.wf = true ∧
        t.pc = s.pc ∧ t.regs = s.regs ∧ t.faultLatch = none) ∧
    (¬ s.ready ∨ progMax < bytes.length → command progMax fuel (.loadProgram bytes) s = (s, .refused))

/-- What nothing short of RESET resets (rule R37): a load keeps the PC and the registers, and a step that
reports halted keeps the registers and the program and leaves the PC where the halt puts it. -/
def Obligations.LoadAndHaltResetNothing : Prop :=
  (∀ (progMax fuel : Nat) (bytes : List Byte) (s : State),
    (command progMax fuel (.loadProgram bytes) s).1.pc = s.pc ∧
    (command progMax fuel (.loadProgram bytes) s).1.regs = s.regs) ∧
  (∀ s t : State, step s = .next t → t.report = .halted →
    t.regs = s.regs ∧ KeepsRest s t ∧
      ((s.prog.len < s.pc ∧ t.pc = s.pc) ∨ (s.pc ≤ s.prog.len ∧ t.pc = s.pc + 1)))

/-- REG_WRITE and REG_READ (rule R204): any 32-bit value in any register, register 0 too, read back by
REG_READ, no other register changed; an index above 31, or a write after a fault, is refused without
effect (decisions D10 and D12; log entry 12). -/
def Obligations.HostRegisterAccess : Prop :=
  ∀ (progMax fuel : Nat) (s : State) (index : Nat) (v : Word),
    (∀ h : index < 32, s.ready →
      ∃ t, command progMax fuel (.regWrite index v) s = (t, .done) ∧
        command progMax fuel (.regRead index) t = (t, .word v) ∧ KeepsOtherRegs ⟨index, h⟩ s t ∧
        t.pc = s.pc ∧ t.report = s.report ∧ KeepsRest s t) ∧
    (∀ h : index < 32, command progMax fuel (.regRead index) s = (s, .word (s.getReg ⟨index, h⟩))) ∧
    (32 ≤ index → command progMax fuel (.regWrite index v) s = (s, .refused) ∧
      command progMax fuel (.regRead index) s = (s, .refused)) ∧
    (¬ s.ready → command progMax fuel (.regWrite index v) s = (s, .refused))

/-- After a fault (rule R180; decision D12, log entry 12): no step is performed, STEP, RUN, LOAD_PROGRAM and
REG_WRITE are refused and change nothing, reading remains, FAULT with its code and information (rule R171,
decision D15) too, and RESET makes the core ready. -/
def Obligations.LatchedFaultBlocksCommands : Prop :=
  ∀ (progMax fuel : Nat) (s : State) (f : Fault), s.faultLatch = some f →
    step s = .fault f ∧
    (∀ c, c ∈ [Command.step, .run] ∨ (∃ bytes, c = .loadProgram bytes) ∨ (∃ i v, c = .regWrite i v) →
      command progMax fuel c s = (s, .refused)) ∧
    (∀ r : Fin 32, command progMax fuel (.regRead r.val) s = (s, .word (s.getReg r))) ∧
    command progMax fuel .observeFault s =
      (s, match f with
        | .registerOutOfRange index => .fault 1 (some index.toNat)
        | .fetchOutOfRange offset => .fault 2 (some offset)) ∧
    (command progMax fuel .reset s).1.ready

/-- Which commands write which state, the last column of rule R38's table and the core's own writes through
STEP and RUN: the program only LOAD_PROGRAM and RESET; a register only REG_WRITE, RESET and the core; the
PC and FAULT only RESET and the core; and a latched fault only RESET clears (decisions D11 and D12; log
entry 12). -/
def Obligations.WhoWritesEachPieceOfState : Prop :=
  ∀ (progMax fuel : Nat) (c : Command) (s t : State) (r : Reply), command progMax fuel c s = (t, r) →
    (t.prog ≠ s.prog → c = .reset ∨ ∃ bytes, c = .loadProgram bytes) ∧
    (t.regs ≠ s.regs → c ∈ [Command.reset, .step, .run] ∨ ∃ i v, c = .regWrite i v) ∧
    (t.pc ≠ s.pc → c ∈ [Command.reset, .step, .run]) ∧
    (t.faultLatch ≠ s.faultLatch → c ∈ [Command.reset, .step, .run]) ∧
    (¬ s.ready → t.ready → c = .reset)

/-- Loading and seeding may be exchanged (rule R207): a REG_WRITE and a LOAD_PROGRAM leave the same state in
either order, both performed. -/
def Obligations.LoadAndSeedInEitherOrder : Prop :=
  ∀ (progMax fuel : Nat) (bytes : List Byte) (index : Nat) (v : Word) (s : State),
    s.ready → bytes.length ≤ progMax → index < 32 →
    ∃ a b t, command progMax fuel (.loadProgram bytes) s = (a, .done) ∧
      command progMax fuel (.regWrite index v) a = (t, .done) ∧
      command progMax fuel (.regWrite index v) s = (b, .done) ∧
      command progMax fuel (.loadProgram bytes) b = (t, .done)

/-- Observing the PC and FAULT (rule R202's last row; that there is such a command at all is decision D11):
the PC as it stands in every state, code 0 and no information while no fault is latched (rule R171,
decision D15), and nothing changes. FAULT once latched is in LatchedFaultBlocksCommands. -/
def Obligations.ObservingPcAndFault : Prop :=
  ∀ (progMax fuel : Nat) (s : State),
    command progMax fuel .observePc s = (s, .pc s.pc) ∧
    (s.ready → command progMax fuel .observeFault s = (s, .fault 0 none))

/-- STEP performs one step and answers its outcome, and RUN is the repetition of STEP (rules R108, R113,
R205): a run that ends does so after some number of steps that report running and one that does not; what
the command then leaves is that last state; a run out of fuel stands where that many steps lead; and more
fuel changes nothing for a run that ends, fuel being the model's (log entry 12). -/
def Obligations.RunIsRepeatedStep : Prop :=
  (∀ (progMax fuel : Nat) (s : State), s.ready →
    ∃ t, step s = .next t ∧ command progMax fuel .step s = (t, .stepped t.report)) ∧
  (∀ (s t : State) (fuel : Nat), s.ready → runFor fuel s = .ended t →
    (∃ k u, k < fuel ∧ RunsOn k s u ∧ step u = .next t ∧ t.report ≠ .running) ∧
    ∀ progMax, command progMax fuel .run s = (t, .done)) ∧
  (∀ (s t : State) (fuel : Nat), s.ready → runFor fuel s = .unfinished t →
    RunsOn fuel s t ∧ ∀ progMax, command progMax fuel .run s = (t, .unfinished)) ∧
  (∀ (s t : State) (fuel more : Nat), runFor fuel s = .ended t → runFor (fuel + more) s = .ended t)

/-- The end of a run (rule R111), from a state with no fault latched: it ends cleanly in the state after
the first step that reports halted, it ends in a fault at the first step that faults, with FAULT set and
the registers as before that step, or every step reports running and it does not end; and no fourth. -/
def Obligations.EndOfARun : Prop :=
  ∀ s : State, s.ready →
    (∀ t, EndsCleanly s t ↔ ∃ k u, RunsOn k s u ∧ step u = .next t ∧ t.report = .halted) ∧
    (∀ t f, EndsInFault s t f ↔
      ∃ k u, RunsOn k s u ∧ step u = .next t ∧ t.report = .faulted f ∧ t.faultLatch = some f ∧
        t.regs = u.regs) ∧
    (NeverEnds s ↔ ∀ k, ∃ u, RunsOn k s u) ∧
    ((∃ t, EndsCleanly s t) ∨ (∃ t f, EndsInFault s t f) ∨ NeverEnds s)

/-! ### The whole machine -/

/-- Every step keeps the invariant: the program buffer in canonical form, the PC at most `max(bound, 255)`
while no fault is latched (rule R28), the fault reported being the one latched. -/
def Obligations.StepKeepsInvariant : Prop :=
  ∀ (bound : Nat) (s t : State), MachineInv bound s → step s = .next t → MachineInv bound t

/-- Every host command keeps the invariant, a whole RUN included, as long as no program longer than `bound`
can be loaded. -/
def Obligations.CommandKeepsInvariant : Prop :=
  ∀ (bound progMax fuel : Nat) (c : Command) (s : State), progMax ≤ bound → MachineInv bound s →
    MachineInv bound (command progMax fuel c s).1

/-- Registers cannot influence where a program goes (rule R163, derived in the spec): two machines with the
same program and PC, whatever their registers hold, go through the same PC values, reports and faults. -/
def Obligations.RegistersNeverSteerControl : Prop :=
  ∀ (s s' : State) (n : Nat) (t : State), s.ready → s'.ready → s'.pc = s.pc → s'.prog = s.prog →
    s'.report = s.report → core.run n s = .next t →
    ∃ t', core.run n s' = .next t' ∧ t'.report = t.report ∧ t'.faultLatch = t.faultLatch ∧
      (t.ready → t'.pc = t.pc)

/-- A run that ends takes at most `max(LEN, 255) + 2` steps (rule R164, derived in the spec): one that is
still going after that many never ends. -/
def Obligations.TerminatingRunsAreShort : Prop :=
  ∀ (s t : State) (fuel : Nat), s.ready → runFor fuel s = .ended t →
    runFor (max s.prog.len 255 + 2) s = .ended t
end

