-- ==== Sys2Proof/Laws/Decode.lean ====
section
/-! SUPPORT. The fetch helpers by cases, the pieces of an immediate, and the opcode byte of each tag. -/

namespace Sys2Proof

@[simp] theorem fetch8_some {get : Nat → Option Byte} {a : Nat} {b : Byte} {k : Byte → Nat → Decoded}
    (h : get a = some b) : fetch8 get a k = k b (a + 1) := by
  simp [fetch8, h]

@[simp] theorem fetch8_none {get : Nat → Option Byte} {a : Nat} {k : Byte → Nat → Decoded}
    (h : get a = none) : fetch8 get a k = .missing a := by
  simp [fetch8, h]

/-- A fetched instruction had its byte. -/
theorem fetch8_instr {get : Nat → Option Byte} {a n : Nat} {k : Byte → Nat → Decoded} {i : Instr}
    (h : fetch8 get a k = .instr i n) : ∃ b, get a = some b ∧ k b (a + 1) = .instr i n := by
  cases hb : get a with
  | none => simp [hb] at h
  | some b => exact ⟨b, rfl, by simpa [hb] using h⟩

/-- A fetch that fails does so here or further on. -/
theorem fetch8_missing {get : Nat → Option Byte} {a n : Nat} {k : Byte → Nat → Decoded}
    (h : fetch8 get a k = .missing n) :
    (get a = none ∧ n = a) ∨ ∃ b, get a = some b ∧ k b (a + 1) = .missing n := by
  cases hb : get a with
  | none => left; simpa [hb, eq_comm] using h
  | some b => right; exact ⟨b, rfl, by simpa [hb] using h⟩

/-- The immediate is its high byte times 256 plus its low byte (rules R52, R73). -/
theorem half_toNat (hi lo : Byte) : (half hi lo).toNat = 256 * hi.toNat + lo.toNat := by
  have h1 := hi.isLt
  have h2 := lo.isLt
  have hd : hi.toNat <<< 8 ||| lo.toNat = hi.toNat <<< 8 + lo.toNat :=
    (Nat.shiftLeft_add_eq_or_of_lt h2 _).symm
  simp only [half, BitVec.toNat_or, BitVec.toNat_shiftLeft, BitVec.toNat_setWidth]
  rw [Nat.mod_eq_of_lt (by omega : hi.toNat < 2 ^ 16), Nat.mod_eq_of_lt (by omega : lo.toNat < 2 ^ 16),
    Nat.mod_eq_of_lt (by simp [Nat.shiftLeft_eq]; omega : hi.toNat <<< 8 < 2 ^ 16), hd,
    Nat.shiftLeft_eq]
  omega

/-- An immediate is put together from its two bytes. -/
@[simp] theorem half_halfHi_halfLo (v : Half) : half (halfHi v) (halfLo v) = v := by
  apply BitVec.eq_of_toNat_eq
  have := v.isLt
  simp only [half_toNat, halfHi, halfLo, BitVec.toNat_setWidth, BitVec.toNat_ushiftRight,
    Nat.shiftRight_eq_div_pow]
  omega

@[simp] theorem halfHi_half (hi lo : Byte) : halfHi (half hi lo) = hi := by
  apply BitVec.eq_of_toNat_eq
  have := hi.isLt
  have := lo.isLt
  simp only [half_toNat, halfHi, BitVec.toNat_setWidth, BitVec.toNat_ushiftRight,
    Nat.shiftRight_eq_div_pow]
  omega

@[simp] theorem halfLo_half (hi lo : Byte) : halfLo (half hi lo) = lo := by
  apply BitVec.eq_of_toNat_eq
  have := lo.isLt
  simp only [half_toNat, halfLo, BitVec.toNat_setWidth]
  omega

/-- The byte of an operation's tag decodes to that tag. -/
theorem decodeOpcode_opcodeByte (op : Opcode) : decodeOpcode (opcodeByte op) = op := by
  cases op <;> decide

/-- Each of the nine operations has exactly one byte. -/
theorem opcodeByte_decodeOpcode (b : Byte) (h : decodeOpcode b ≠ .invalid) :
    opcodeByte (decodeOpcode b) = b := by
  revert b; decide

/-- A byte is INVALID exactly from 9 on (rule R77). -/
theorem decodeOpcode_invalid_iff (b : Byte) : decodeOpcode b = .invalid ↔ 9 ≤ b.toNat := by
  revert b; decide

/-- Decoding a list of bytes, by the tag of its first byte. -/
theorem decode_cons (b : Byte) (rest : List Byte) :
    decode (b :: rest) =
      match decodeOpcode b with
      | .halt => .instr .halt 1
      | .loadImmediate => fetchRegImm (fun a => (b :: rest)[a]?) 1 .loadImmediate
      | .move => fetchRegReg (fun a => (b :: rest)[a]?) 1 .move
      | .addImmediate => fetchRegImm (fun a => (b :: rest)[a]?) 1 .addImmediate
      | .subtractImmediate => fetchRegImm (fun a => (b :: rest)[a]?) 1 .subtractImmediate
      | .bitwiseAnd => fetchRegReg (fun a => (b :: rest)[a]?) 1 .bitwiseAnd
      | .bitwiseOr => fetchRegReg (fun a => (b :: rest)[a]?) 1 .bitwiseOr
      | .bitwiseXor => fetchRegReg (fun a => (b :: rest)[a]?) 1 .bitwiseXor
      | .jump => fetch8 (fun a => (b :: rest)[a]?) 1 fun target a' => .instr (.jump target) a'
      | .invalid => .instr (.invalid b) 1 := by
  cases h : decodeOpcode b <;> simp [decode, decodeFrom, fetch8, h]

/-- Decoding at an offset is decoding at 0 what is read from that offset on. -/
theorem decodeFrom_shift (get : Nat → Option Byte) (p : Nat) :
    decodeFrom get p =
      match decodeFrom (fun a => get (p + a)) 0 with
      | .instr i n => .instr i (p + n)
      | .missing n => .missing (p + n) := by
  simp only [decodeFrom, fetch8, Nat.add_zero, Nat.zero_add]
  cases get p with
  | none => simp
  | some b =>
    simp only
    cases h1 : get (p + 1) <;> cases h2 : get (p + 2) <;> cases h3 : get (p + 3) <;>
      cases decodeOpcode b <;> simp [fetchRegImm, fetchRegReg, fetch16, fetch8, h1, h2, h3, Nat.add_assoc]

end Sys2Proof
end

