-- ==== Sys2Proof/Laws/Memory.lean ====
section
/-! SUPPORT. The program buffer: what a load leaves, read after write, and that every operation keeps the
canonical form. -/

namespace Sys2Proof.Machine

/-! ### Reading -/

theorem byteAt_of_lt {m : Memory} {a : Nat} (h : a < m.len) : m.byteAt a = some (lookupCell m.cells a) :=
  if_pos h

theorem byteAt_of_le {m : Memory} {a : Nat} (h : m.len ≤ a) : m.byteAt a = none := if_neg (by omega)

/-- An offset holds a byte exactly below `LEN` (rules R50, R55). -/
theorem byteAt_eq_none_iff (m : Memory) (a : Nat) : m.byteAt a = none ↔ m.len ≤ a := by
  by_cases h : a < m.len
  · simp [byteAt_of_lt h, h]
  · simp [byteAt_of_le (Nat.le_of_not_lt h), Nat.le_of_not_lt h]

theorem byteAt_lt {m : Memory} {a : Nat} {b : Byte} (h : m.byteAt a = some b) : a < m.len := by
  by_contra hn
  simp [byteAt_of_le (Nat.le_of_not_lt hn)] at h

@[simp] theorem length_toBytes (m : Memory) : m.toBytes.length = m.len := by simp [Memory.toBytes]

/-- The buffer as a list of bytes reads as the buffer does. -/
theorem getElem?_toBytes (m : Memory) (a : Nat) : m.toBytes[a]? = m.byteAt a := by
  by_cases h : a < m.len
  · simp [Memory.toBytes, byteAt_of_lt h, h]
  · simp [Memory.toBytes, byteAt_of_le (Nat.le_of_not_lt h), Nat.le_of_not_lt h]

theorem getElem?_drop_toBytes (m : Memory) (p a : Nat) : (m.toBytes.drop p)[a]? = m.byteAt (p + a) := by
  rw [List.getElem?_drop, getElem?_toBytes]

/-! ### Cells in canonical form -/

theorem cellsWf_cons {high low k : Nat} {b : Byte} {rest : List Host.Cell} :
    cellsWf high low ((k, b) :: rest) = true ↔
      low ≤ k ∧ k < high ∧ b ≠ unlistedByte ∧ cellsWf high (k + 1) rest = true := by
  simp [cellsWf, and_assoc]

/-- A lower start and a higher end keep the form. -/
theorem cellsWf_mono {high high' low low' : Nat} {cells : List Host.Cell} (hl : low' ≤ low)
    (hh : high ≤ high') (h : cellsWf high low cells = true) : cellsWf high' low' cells = true := by
  induction cells generalizing low low' with
  | nil => rfl
  | cons c rest ih =>
    obtain ⟨k, b⟩ := c
    obtain ⟨h1, h2, h3, h4⟩ := cellsWf_cons.1 h
    exact cellsWf_cons.2 ⟨by omega, by omega, h3, ih (Nat.le_refl _) h4⟩

/-- Below its first cell a well-formed list gives the unlisted byte. -/
theorem lookupCell_below {high low a : Nat} {cells : List Host.Cell} (h : cellsWf high low cells = true)
    (ha : a < low) : lookupCell cells a = unlistedByte := by
  induction cells generalizing low with
  | nil => rfl
  | cons c rest ih =>
    obtain ⟨k, b⟩ := c
    obtain ⟨h1, -, -, h4⟩ := cellsWf_cons.1 h
    have : k ≠ a := by omega
    simp [lookupCell, this, ih h4 (by omega)]

/-! ### Loading a byte sequence -/

theorem cellsWf_cellsFrom (a : Nat) (bytes : List Byte) :
    cellsWf (a + bytes.length) a (cellsFrom a bytes) = true := by
  induction bytes generalizing a with
  | nil => rfl
  | cons b rest ih =>
    have h := ih (a + 1)
    simp only [cellsFrom, List.length_cons]
    split
    · exact cellsWf_mono (by omega) (by omega) h
    · next hb => exact cellsWf_cons.2 ⟨Nat.le_refl _, by omega, hb, cellsWf_mono (Nat.le_refl _) (by omega) h⟩

theorem lookupCell_cellsFrom (a k : Nat) (bytes : List Byte) :
    lookupCell (cellsFrom a bytes) (a + k) = bytes[k]?.getD unlistedByte := by
  induction bytes generalizing a k with
  | nil => simp [cellsFrom, lookupCell]
  | cons b rest ih =>
    have hbelow : lookupCell (cellsFrom (a + 1) rest) a = unlistedByte :=
      lookupCell_below (cellsWf_cellsFrom (a + 1) rest) (by omega)
    cases k with
    | zero => by_cases hb : b = unlistedByte <;> simp [cellsFrom, lookupCell, hb, hbelow]
    | succ k =>
      have hk := ih (a + 1) k
      rw [show a + 1 + k = a + (k + 1) by omega] at hk
      by_cases hb : b = unlistedByte <;> simp [cellsFrom, lookupCell, hb, hk]

@[simp] theorem ofBytes_len (bytes : List Byte) : (Memory.ofBytes bytes).len = bytes.length := rfl

/-- A loaded buffer is in canonical form. -/
theorem ofBytes_wf (bytes : List Byte) : (Memory.ofBytes bytes).wf = true := by
  simpa [Memory.wf, Memory.ofBytes] using cellsWf_cellsFrom 0 bytes

/-- Reset memory is in canonical form. -/
theorem reset_prog_wf : State.reset.prog.wf = true := rfl

/-! ### Writing one byte -/

theorem putCell_wf {high low a : Nat} {b : Byte} {cells : List Host.Cell} (hl : low ≤ a) (hh : a < high)
    (h : cellsWf high low cells = true) : cellsWf high low (putCell a b cells) = true := by
  induction cells generalizing low with
  | nil =>
    by_cases hb : b = unlistedByte
    · simp [putCell, hb, cellsWf]
    · simp [putCell, hb, cellsWf, hl, hh]
  | cons c rest ih =>
    obtain ⟨k, v⟩ := c
    obtain ⟨h1, h2, h3, h4⟩ := cellsWf_cons.1 h
    simp only [putCell]
    split
    · split
      · exact h
      · next hak hb => exact cellsWf_cons.2 ⟨hl, hh, hb, cellsWf_cons.2 ⟨by omega, h2, h3, h4⟩⟩
    · split
      · next hak =>
        subst hak
        split
        · exact cellsWf_mono (by omega) (Nat.le_refl _) h4
        · next hb => exact cellsWf_cons.2 ⟨hl, hh, hb, h4⟩
      · exact cellsWf_cons.2 ⟨h1, h2, h3, ih (by omega) h4⟩

theorem lookupCell_putCell {high low a : Nat} {b : Byte} {cells : List Host.Cell}
    (h : cellsWf high low cells = true) (x : Nat) :
    lookupCell (putCell a b cells) x = if x = a then b else lookupCell cells x := by
  induction cells generalizing low with
  | nil =>
    by_cases hb : b = unlistedByte <;> by_cases hx : x = a <;>
      simp [putCell, lookupCell, hb, hx, Ne.symm]
  | cons c rest ih =>
    obtain ⟨k, v⟩ := c
    obtain ⟨h1, h2, h3, h4⟩ := cellsWf_cons.1 h
    have hrest : ∀ y, y < k + 1 → lookupCell rest y = unlistedByte := fun y hy => lookupCell_below h4 hy
    simp only [putCell]
    split
    · next hak =>
      have hka : k ≠ a := by omega
      split
      · next hb =>
        by_cases hx : x = a
        · subst hx; simp [lookupCell, hka, hrest x (by omega), hb]
        · simp [hx]
      · by_cases hx : x = a
        · simp [lookupCell, hx]
        · simp [lookupCell, hx, Ne.symm hx]
    · split
      · next hak =>
        subst hak
        split
        · next hb =>
          by_cases hx : x = a
          · subst hx; simp [hrest x (by omega), hb]
          · simp [lookupCell, hx, Ne.symm hx]
        · by_cases hx : x = a
          · simp [lookupCell, hx]
          · simp [lookupCell, hx, Ne.symm hx]
      · next hak hak' =>
        by_cases hx : k = x
        · simp [lookupCell, hx, show x ≠ a by omega]
        · simp [lookupCell, hx, ih h4]

/-- Writing a byte keeps the canonical form. -/
theorem putByte_wf {m : Memory} (a : Nat) (b : Byte) (h : m.wf = true) : (m.putByte a b).wf = true :=
  putCell_wf (Nat.zero_le _) (by simp [Memory.putByte])
    (cellsWf_mono (Nat.le_refl _) (by simp [Memory.putByte]) h)

/-- Read after write: the offset written holds the byte. -/
theorem byteAt_putByte_same {m : Memory} (a : Nat) (b : Byte) (h : m.wf = true) :
    (m.putByte a b).byteAt a = some b := by
  rw [byteAt_of_lt (by simp [Memory.putByte])]
  simp [Memory.putByte, lookupCell_putCell h]

/-- Read after write: every other offset that held a byte holds the same one. -/
theorem byteAt_putByte_ne {m : Memory} {a x : Nat} (b : Byte) (h : m.wf = true) (hx : x ≠ a)
    (hlt : x < m.len) : (m.putByte a b).byteAt x = m.byteAt x := by
  rw [byteAt_of_lt hlt, byteAt_of_lt (by simp [Memory.putByte]; omega)]
  simp [Memory.putByte, lookupCell_putCell h, hx]

/-- Writing several bytes keeps the canonical form. -/
theorem putBytes_wf {m : Memory} (a : Nat) (bytes : List Byte) (h : m.wf = true) :
    (m.putBytes a bytes).wf = true := by
  induction bytes generalizing m a with
  | nil => exact h
  | cons b rest ih => exact ih (a + 1) (putByte_wf a b h)

end Sys2Proof.Machine
end

