-- ==== Sys2Proof/Laws/State.lean ====
section
/-! SUPPORT. One lemma per field for each update of State, and the register file's read-after-write laws,
so that no proof unfolds a record update. -/

namespace Sys2Proof.Machine

/-! ### Registers -/

@[simp] theorem setReg_pc (s : State) (i : Fin 32) (v : Word) : (s.setReg i v).pc = s.pc := rfl
@[simp] theorem setReg_prog (s : State) (i : Fin 32) (v : Word) : (s.setReg i v).prog = s.prog := rfl
@[simp] theorem setReg_faultLatch (s : State) (i : Fin 32) (v : Word) :
    (s.setReg i v).faultLatch = s.faultLatch := rfl
@[simp] theorem setReg_report (s : State) (i : Fin 32) (v : Word) : (s.setReg i v).report = s.report := rfl
@[simp] theorem setReg_freeCount (s : State) (i : Fin 32) (v : Word) :
    (s.setReg i v).freeCount = s.freeCount := rfl

/-- A register reads as the register file's entry. -/
theorem getReg_eq (s : State) (i : Fin 32) : s.getReg i = s.regs[i.val] := rfl

/-- States with the same register file read the same. -/
theorem getReg_congr {s t : State} (h : t.regs = s.regs) (i : Fin 32) : t.getReg i = s.getReg i := by
  simp [getReg_eq, h]

/-- Register files that read the same everywhere are the same. -/
theorem regs_ext {s t : State} (h : ∀ i, t.getReg i = s.getReg i) : t.regs = s.regs :=
  Vector.ext fun k hk => h ⟨k, hk⟩

@[simp] theorem getReg_setReg_same (s : State) (i : Fin 32) (v : Word) : (s.setReg i v).getReg i = v := by
  simp [getReg_eq, State.setReg]

theorem getReg_setReg_ne (s : State) {i j : Fin 32} (v : Word) (h : j ≠ i) :
    (s.setReg i v).getReg j = s.getReg j := by
  simp [getReg_eq, State.setReg, Vector.getElem_set_ne, Fin.val_ne_of_ne h.symm]

/-- Reading a register after a write, in one equation. -/
theorem getReg_setReg (s : State) (i j : Fin 32) (v : Word) :
    (s.setReg i v).getReg j = if j = i then v else s.getReg j := by
  split
  · next h => subst h; simp
  · next h => exact getReg_setReg_ne s v h

/-- Writing a register its own content changes nothing. -/
@[simp] theorem setReg_getReg (s : State) (i : Fin 32) : s.setReg i (s.getReg i) = s := by
  simp [State.setReg, getReg_eq]

/-- Every register is 0 after reset (rules R21, R36). -/
@[simp] theorem getReg_reset (i : Fin 32) : State.reset.getReg i = 0#32 := by
  simp [getReg_eq, State.reset]

/-! ### The clean end of a step, and another program -/

@[simp] theorem endStep_regs (s : State) (p : Nat) (r : Report) : (s.endStep p r).regs = s.regs := rfl
@[simp] theorem endStep_pc (s : State) (p : Nat) (r : Report) : (s.endStep p r).pc = p := rfl
@[simp] theorem endStep_prog (s : State) (p : Nat) (r : Report) : (s.endStep p r).prog = s.prog := rfl
@[simp] theorem endStep_faultLatch (s : State) (p : Nat) (r : Report) :
    (s.endStep p r).faultLatch = s.faultLatch := rfl
@[simp] theorem endStep_report (s : State) (p : Nat) (r : Report) : (s.endStep p r).report = r := rfl
@[simp] theorem endStep_freeCount (s : State) (p : Nat) (r : Report) :
    (s.endStep p r).freeCount = s.freeCount := rfl
@[simp] theorem getReg_endStep (s : State) (p : Nat) (r : Report) (i : Fin 32) :
    (s.endStep p r).getReg i = s.getReg i := rfl
@[simp] theorem getReg_prog (s : State) (p : Memory) (i : Fin 32) :
    ({ s with prog := p } : State).getReg i = s.getReg i := rfl

/-! ### Taking a fault -/

@[simp] theorem takeFault_regs (f : Fault) (s : State) : (takeFault f s).regs = s.regs := rfl
@[simp] theorem takeFault_prog (f : Fault) (s : State) : (takeFault f s).prog = s.prog := rfl
@[simp] theorem takeFault_faultLatch (f : Fault) (s : State) : (takeFault f s).faultLatch = some f := rfl
@[simp] theorem takeFault_report (f : Fault) (s : State) : (takeFault f s).report = .faulted f := rfl
@[simp] theorem takeFault_freeCount (f : Fault) (s : State) :
    (takeFault f s).freeCount = s.freeCount + 1 := rfl
@[simp] theorem getReg_takeFault (f : Fault) (s : State) (i : Fin 32) :
    (takeFault f s).getReg i = s.getReg i := rfl

/-! ### Reset, load, placing an instruction -/

@[simp] theorem reset_pc : State.reset.pc = 0 := rfl
@[simp] theorem reset_prog : State.reset.prog = { len := 0, cells := [] } := rfl
@[simp] theorem reset_faultLatch : State.reset.faultLatch = none := rfl
@[simp] theorem reset_report : State.reset.report = .idle := rfl

@[simp] theorem loadProgram_regs (b : List Byte) (s : State) : (loadProgram b s).regs = s.regs := rfl
@[simp] theorem loadProgram_pc (b : List Byte) (s : State) : (loadProgram b s).pc = s.pc := rfl
@[simp] theorem loadProgram_prog (b : List Byte) (s : State) :
    (loadProgram b s).prog = Memory.ofBytes b := rfl
@[simp] theorem loadProgram_faultLatch (b : List Byte) (s : State) :
    (loadProgram b s).faultLatch = s.faultLatch := rfl
@[simp] theorem loadProgram_report (b : List Byte) (s : State) : (loadProgram b s).report = s.report := rfl

@[simp] theorem withFetchWord_regs (s : State) (n w : Nat) : (s.withFetchWord n w).regs = s.regs := rfl
@[simp] theorem withFetchWord_pc (s : State) (n w : Nat) : (s.withFetchWord n w).pc = s.pc := rfl
@[simp] theorem withFetchWord_faultLatch (s : State) (n w : Nat) :
    (s.withFetchWord n w).faultLatch = none := rfl
@[simp] theorem withFetchWord_prog (s : State) (n w : Nat) :
    (s.withFetchWord n w).prog = s.prog.putBytes s.pc (bytesOfBits n w) := rfl

end Sys2Proof.Machine
end

