-- ==== Sys2Proof/Laws/Ops.lean ====
section
/-! SUPPORT. What each shared operation can do, once each: the register check, the two operand shapes, the
guard, and the inversion of `exec`. -/

namespace Sys2Proof.Machine

theorem withReg_ok {field : Byte} (h : field.toNat < 32) (s : State) (k : Fin 32 → Result) :
    withReg field s k = k ⟨field.toNat, h⟩ := dif_pos h

theorem withReg_bad {field : Byte} (h : 32 ≤ field.toNat) (s : State) (k : Fin 32 → Result) :
    withReg field s k = .next (takeFault (.registerOutOfRange field) s) := dif_neg (by omega)

/-- Format FRI with its field in range. -/
theorem regImmOp_ok (f : Word → Word → Word) {reg : Byte} (h : reg.toNat < 32) (value : Half) (s : State) :
    regImmOp f reg value s =
      .next ((s.setReg ⟨reg.toNat, h⟩ (f (s.getReg ⟨reg.toNat, h⟩) (immExt value))).endStep (s.pc + 4)
        .running) :=
  withReg_ok h s _

/-- Format FRI with its field out of range. -/
theorem regImmOp_bad (f : Word → Word → Word) {reg : Byte} (h : 32 ≤ reg.toNat) (value : Half) (s : State) :
    regImmOp f reg value s = .next (takeFault (.registerOutOfRange reg) s) := withReg_bad h s _

/-- Format FRR with both fields in range. -/
theorem regRegOp_ok (f : Word → Word → Word) {dest src : Byte} (hd : dest.toNat < 32) (hs : src.toNat < 32)
    (s : State) :
    regRegOp f dest src s =
      .next ((s.setReg ⟨dest.toNat, hd⟩
        (f (s.getReg ⟨dest.toNat, hd⟩) (s.getReg ⟨src.toNat, hs⟩))).endStep (s.pc + 3) .running) := by
  rw [regRegOp, withReg_ok hd, withReg_ok hs]
  rfl

/-- Format FRR with its first field out of range. -/
theorem regRegOp_badDest (f : Word → Word → Word) {dest : Byte} (src : Byte) (hd : 32 ≤ dest.toNat)
    (s : State) : regRegOp f dest src s = .next (takeFault (.registerOutOfRange dest) s) :=
  withReg_bad hd s _

/-- Format FRR with only its second field out of range. -/
theorem regRegOp_badSrc (f : Word → Word → Word) {dest src : Byte} (hd : dest.toNat < 32)
    (hs : 32 ≤ src.toNat) (s : State) :
    regRegOp f dest src s = .next (takeFault (.registerOutOfRange src) s) := by
  rw [regRegOp, withReg_ok hd, withReg_bad hs]

/-- The widened immediate has the immediate's own value (rule R74, zero extension). -/
theorem immExt_toNat (value : Half) : (immExt value).toNat = value.toNat := by
  have := value.isLt
  simp only [immExt, immExtend, widenImm, BitVec.toNat_setWidth]
  omega

/-- The guard fires exactly beyond the end of the program (rule R101). -/
theorem guardFires_iff (s : State) : s.guardFires = true ↔ s.prog.len < s.pc := by
  simp [State.guardFires, guardFiresAt, guardStrict]

/-! ### Each arm of `exec` over its shared operation -/

theorem exec_halt (s : State) : exec .halt s = .next (s.endStep (s.pc + 1) .halted) := rfl
theorem exec_invalid (b : Byte) (s : State) :
    exec (.invalid b) s = .next (s.endStep (s.pc + 1) .halted) := rfl
theorem exec_jump (b : Byte) (s : State) : exec (.jump b) s = .next (s.endStep b.toNat .running) := rfl
theorem exec_loadImmediate (r : Byte) (v : Half) (s : State) :
    exec (.loadImmediate r v) s = regImmOp (fun _ m => m) r v s := rfl
theorem exec_addImmediate (r : Byte) (v : Half) (s : State) :
    exec (.addImmediate r v) s = regImmOp (fun a m => a + m) r v s := rfl
theorem exec_subtractImmediate (r : Byte) (v : Half) (s : State) :
    exec (.subtractImmediate r v) s = regImmOp (fun a m => a - m) r v s := rfl
theorem exec_move (d r : Byte) (s : State) : exec (.move d r) s = regRegOp (fun _ b => b) d r s := rfl
theorem exec_bitwiseAnd (d r : Byte) (s : State) :
    exec (.bitwiseAnd d r) s = regRegOp (fun a b => a &&& b) d r s := rfl
theorem exec_bitwiseOr (d r : Byte) (s : State) :
    exec (.bitwiseOr d r) s = regRegOp (fun a b => a ||| b) d r s := rfl
theorem exec_bitwiseXor (d r : Byte) (s : State) :
    exec (.bitwiseXor d r) s = regRegOp (fun a b => a ^^^ b) d r s := rfl

/-! ### What an instruction can do -/

/-- The PC after an instruction that completes (rule R27). -/
def nextPc (i : Instr) (pc : Nat) : Nat :=
  match i with
  | .jump target => target.toNat
  | _ => pc + i.length

/-- What a completed instruction reports (rule R104). -/
def reportOf (i : Instr) : Report :=
  match i with
  | .halt => .halted
  | .invalid _ => .halted
  | _ => .running

/-- Every instruction does one of three things: it takes the fault of the first register field that is out
of range, or it writes the register of its first field, or it writes none; and the PC and the report
follow from the instruction alone. -/
theorem exec_cases (i : Instr) (s : State) :
    (∃ f, i.regFields.find? (fun f => decide (32 ≤ f.toNat)) = some f ∧
      exec i s = .next (takeFault (.registerOutOfRange f) s)) ∨
    (i.regFields.find? (fun f => decide (32 ≤ f.toNat)) = none ∧
      ((∃ d v, (∃ f, i.regFields.head? = some f ∧ f.toNat = d.val) ∧
          exec i s = .next ((s.setReg d v).endStep (nextPc i s.pc) (reportOf i))) ∨
        (i.regFields = [] ∧ exec i s = .next (s.endStep (nextPc i s.pc) (reportOf i))))) := by
  have imm : ∀ (f : Word → Word → Word) (reg : Byte) (value : Half),
      (∃ g, [reg].find? (fun f => decide (32 ≤ f.toNat)) = some g ∧
        regImmOp f reg value s = .next (takeFault (.registerOutOfRange g) s)) ∨
      ([reg].find? (fun f => decide (32 ≤ f.toNat)) = none ∧
        ∃ d v, reg.toNat = d.val ∧
          regImmOp f reg value s =
            .next ((s.setReg d v).endStep (s.pc + 4) .running)) := by
    intro f reg value
    by_cases h : reg.toNat < 32
    · exact .inr ⟨by simpa using h, _, _, rfl, regImmOp_ok f h value s⟩
    · exact .inl ⟨reg, by simp; omega, regImmOp_bad f (by omega) value s⟩
  have reg : ∀ (f : Word → Word → Word) (dest src : Byte),
      (∃ g, [dest, src].find? (fun f => decide (32 ≤ f.toNat)) = some g ∧
        regRegOp f dest src s = .next (takeFault (.registerOutOfRange g) s)) ∨
      ([dest, src].find? (fun f => decide (32 ≤ f.toNat)) = none ∧
        ∃ d v, dest.toNat = d.val ∧
          regRegOp f dest src s =
            .next ((s.setReg d v).endStep (s.pc + 3) .running)) := by
    intro f dest src
    by_cases hd : dest.toNat < 32
    · have hd' : ¬ 32 ≤ dest.toNat := by omega
      by_cases hs : src.toNat < 32
      · have hs' : ¬ 32 ≤ src.toNat := by omega
        exact .inr ⟨by simp [List.find?, hd', hs'], _, _, rfl, regRegOp_ok f hd hs s⟩
      · exact .inl ⟨src, by simp [List.find?, hd', show 32 ≤ src.toNat by omega], regRegOp_badSrc f hd (by omega) s⟩
    · exact .inl ⟨dest, by simp [List.find?, show 32 ≤ dest.toNat by omega], regRegOp_badDest f src (by omega) s⟩
  cases i with
  | halt => exact .inr ⟨rfl, .inr ⟨rfl, rfl⟩⟩
  | invalid b => exact .inr ⟨rfl, .inr ⟨rfl, rfl⟩⟩
  | jump t => exact .inr ⟨rfl, .inr ⟨rfl, rfl⟩⟩
  | loadImmediate r v =>
    rcases imm (fun _ m => m) r v with h | ⟨h, d, w, e, h'⟩
    · exact .inl h
    · exact .inr ⟨h, .inl ⟨d, w, ⟨r, rfl, e⟩, h'⟩⟩
  | addImmediate r v =>
    rcases imm (fun a m => a + m) r v with h | ⟨h, d, w, e, h'⟩
    · exact .inl h
    · exact .inr ⟨h, .inl ⟨d, w, ⟨r, rfl, e⟩, h'⟩⟩
  | subtractImmediate r v =>
    rcases imm (fun a m => a - m) r v with h | ⟨h, d, w, e, h'⟩
    · exact .inl h
    · exact .inr ⟨h, .inl ⟨d, w, ⟨r, rfl, e⟩, h'⟩⟩
  | move x r =>
    rcases reg (fun _ b => b) x r with h | ⟨h, d, w, e, h'⟩
    · exact .inl h
    · exact .inr ⟨h, .inl ⟨d, w, ⟨x, rfl, e⟩, h'⟩⟩
  | bitwiseAnd x r =>
    rcases reg (fun a b => a &&& b) x r with h | ⟨h, d, w, e, h'⟩
    · exact .inl h
    · exact .inr ⟨h, .inl ⟨d, w, ⟨x, rfl, e⟩, h'⟩⟩
  | bitwiseOr x r =>
    rcases reg (fun a b => a ||| b) x r with h | ⟨h, d, w, e, h'⟩
    · exact .inl h
    · exact .inr ⟨h, .inl ⟨d, w, ⟨x, rfl, e⟩, h'⟩⟩
  | bitwiseXor x r =>
    rcases reg (fun a b => a ^^^ b) x r with h | ⟨h, d, w, e, h'⟩
    · exact .inl h
    · exact .inr ⟨h, .inl ⟨d, w, ⟨x, rfl, e⟩, h'⟩⟩

end Sys2Proof.Machine
end

