-- ==== Sys2Proof/Laws/PerInstr.lean ====
section
/-! SUPPORT. The statements made per instruction (LAWS.json): the encoding of an instruction has the
length its tag gives (rule R72), and a well-formed instruction's first byte decodes to its tag (rules R75,
R76). -/

namespace Sys2Proof.Laws

/-- The encoding is as long as the tag says, and for a well-formed instruction its byte 0 is a byte of the
tag. -/
def EncodingShape.Statement (i : Instr) : Prop :=
  (encode i).length = i.length ∧
  (i.wellFormed = true → ∃ b rest, encode i = b :: rest ∧ decodeOpcode b = i.opcode)

theorem EncodingShape.halt : EncodingShape.Statement .halt :=
  ⟨rfl, fun _ => ⟨_, _, rfl, decodeOpcode_opcodeByte .halt⟩⟩

theorem EncodingShape.loadImmediate (reg : Byte) (value : Half) :
    EncodingShape.Statement (.loadImmediate reg value) :=
  ⟨rfl, fun _ => ⟨_, _, rfl, decodeOpcode_opcodeByte .loadImmediate⟩⟩

theorem EncodingShape.move (dest src : Byte) : EncodingShape.Statement (.move dest src) :=
  ⟨rfl, fun _ => ⟨_, _, rfl, decodeOpcode_opcodeByte .move⟩⟩

theorem EncodingShape.addImmediate (reg : Byte) (value : Half) :
    EncodingShape.Statement (.addImmediate reg value) :=
  ⟨rfl, fun _ => ⟨_, _, rfl, decodeOpcode_opcodeByte .addImmediate⟩⟩

theorem EncodingShape.subtractImmediate (reg : Byte) (value : Half) :
    EncodingShape.Statement (.subtractImmediate reg value) :=
  ⟨rfl, fun _ => ⟨_, _, rfl, decodeOpcode_opcodeByte .subtractImmediate⟩⟩

theorem EncodingShape.bitwiseAnd (dest src : Byte) : EncodingShape.Statement (.bitwiseAnd dest src) :=
  ⟨rfl, fun _ => ⟨_, _, rfl, decodeOpcode_opcodeByte .bitwiseAnd⟩⟩

theorem EncodingShape.bitwiseOr (dest src : Byte) : EncodingShape.Statement (.bitwiseOr dest src) :=
  ⟨rfl, fun _ => ⟨_, _, rfl, decodeOpcode_opcodeByte .bitwiseOr⟩⟩

theorem EncodingShape.bitwiseXor (dest src : Byte) : EncodingShape.Statement (.bitwiseXor dest src) :=
  ⟨rfl, fun _ => ⟨_, _, rfl, decodeOpcode_opcodeByte .bitwiseXor⟩⟩

theorem EncodingShape.jump (target : Byte) : EncodingShape.Statement (.jump target) :=
  ⟨rfl, fun _ => ⟨_, _, rfl, decodeOpcode_opcodeByte .jump⟩⟩

theorem EncodingShape.invalid (byte : Byte) : EncodingShape.Statement (.invalid byte) :=
  ⟨rfl, fun h => ⟨_, _, rfl, (decodeOpcode_invalid_iff byte).2 (by simpa [Instr.wellFormed] using h)⟩⟩

end Sys2Proof.Laws
end

