-- ==== Sys2Proof/Laws/Step.lean ====
section
/-! SUPPORT. What a step can do, once: the inversion that every proof about a step cites. -/

namespace Sys2Proof.Machine

/-- An instruction fetched has its opcode byte inside the program (rules R102, R105). -/
theorem fetchInstr_lt {s : State} {i : Instr} {n : Nat} (h : s.fetchInstr = .instr i n) :
    s.pc < s.prog.len := by
  rw [State.fetchInstr, decodeFrom] at h
  obtain ⟨b, hb, -⟩ := fetch8_instr h
  exact byteAt_lt hb

/-- One failing byte fetch: it fails at `LEN`, or the byte is there and the rest fails. -/
theorem fetch8_byteAt_missing {m : Memory} {a n : Nat} {k : Byte → Nat → Decoded} (ha : a ≤ m.len)
    (h : fetch8 m.byteAt a k = .missing n) :
    n = m.len ∨ ∃ b, a + 1 ≤ m.len ∧ k b (a + 1) = .missing n := by
  rcases fetch8_missing h with ⟨h1, h2⟩ | ⟨b, hb, h2⟩
  · have := (byteAt_eq_none_iff _ _).1 h1
    exact .inl (by omega)
  · exact .inr ⟨b, byteAt_lt hb, h2⟩

theorem fetchRegReg_missing {m : Memory} {a n : Nat} {mk : Byte → Byte → Instr} (ha : a ≤ m.len)
    (h : fetchRegReg m.byteAt a mk = .missing n) : n = m.len := by
  obtain h | ⟨_, ha, h⟩ := fetch8_byteAt_missing ha h
  · exact h
  obtain h | ⟨_, ha, h⟩ := fetch8_byteAt_missing ha h
  · exact h
  · cases h

theorem fetchRegImm_missing {m : Memory} {a n : Nat} {mk : Byte → Half → Instr} (ha : a ≤ m.len)
    (h : fetchRegImm m.byteAt a mk = .missing n) : n = m.len := by
  obtain h | ⟨_, ha, h⟩ := fetch8_byteAt_missing ha h
  · exact h
  obtain h | ⟨_, ha, h⟩ := fetch8_byteAt_missing ha h
  · exact h
  obtain h | ⟨_, ha, h⟩ := fetch8_byteAt_missing ha h
  · exact h
  · cases h

/-- A fetch that runs out of the program does so at `LEN` (rule R55). -/
theorem fetchInstr_missing {s : State} {a : Nat} (hp : s.pc ≤ s.prog.len)
    (h : s.fetchInstr = .missing a) : a = s.prog.len := by
  rw [State.fetchInstr, decodeFrom] at h
  obtain h | ⟨b, hb, h⟩ := fetch8_byteAt_missing hp h
  · exact h
  cases hop : decodeOpcode b <;> simp only [hop] at h
  case loadImmediate => exact fetchRegImm_missing hb h
  case addImmediate => exact fetchRegImm_missing hb h
  case subtractImmediate => exact fetchRegImm_missing hb h
  case move => exact fetchRegReg_missing hb h
  case bitwiseAnd => exact fetchRegReg_missing hb h
  case bitwiseOr => exact fetchRegReg_missing hb h
  case bitwiseXor => exact fetchRegReg_missing hb h
  case jump =>
    obtain h | ⟨_, _, h⟩ := fetch8_byteAt_missing hb h
    · exact h
    · cases h
  all_goals cases h

/-- The operands of format FRI are there exactly when the program reaches far enough. -/
theorem fetchRegImm_byteAt (m : Memory) (p : Nat) (mk : Byte → Half → Instr) :
    (p + 3 ≤ m.len → ∃ r v, fetchRegImm m.byteAt p mk = .instr (mk r v) (p + 3)) ∧
    (m.len < p + 3 → ∃ n, fetchRegImm m.byteAt p mk = .missing n) := by
  constructor
  · intro h
    have h1 := byteAt_of_lt (m := m) (a := p) (by omega)
    have h2 := byteAt_of_lt (m := m) (a := p + 1) (by omega)
    have h3 := byteAt_of_lt (m := m) (a := p + 1 + 1) (by omega)
    exact ⟨_, _, by simp only [fetchRegImm, fetch16, fetch8_some h1, fetch8_some h2, fetch8_some h3]; rfl⟩
  · intro h
    rcases Nat.lt_or_ge p m.len with h1 | h1
    · rcases Nat.lt_or_ge (p + 1) m.len with h2 | h2
      · exact ⟨p + 1 + 1, by
          simp only [fetchRegImm, fetch16, fetch8_some (byteAt_of_lt h1), fetch8_some (byteAt_of_lt h2),
            fetch8_none (byteAt_of_le (show m.len ≤ p + 1 + 1 by omega))]⟩
      · exact ⟨p + 1, by simp only [fetchRegImm, fetch16, fetch8_some (byteAt_of_lt h1), fetch8_none (byteAt_of_le h2)]⟩
    · exact ⟨p, by simp only [fetchRegImm, fetch8_none (byteAt_of_le h1)]⟩

/-- The operands of format FRR are there exactly when the program reaches far enough. -/
theorem fetchRegReg_byteAt (m : Memory) (p : Nat) (mk : Byte → Byte → Instr) :
    (p + 2 ≤ m.len → ∃ d r, fetchRegReg m.byteAt p mk = .instr (mk d r) (p + 2)) ∧
    (m.len < p + 2 → ∃ n, fetchRegReg m.byteAt p mk = .missing n) := by
  constructor
  · intro h
    have h1 := byteAt_of_lt (m := m) (a := p) (by omega)
    have h2 := byteAt_of_lt (m := m) (a := p + 1) (by omega)
    exact ⟨_, _, by simp only [fetchRegReg, fetch8_some h1, fetch8_some h2]; rfl⟩
  · intro h
    rcases Nat.lt_or_ge p m.len with h1 | h1
    · exact ⟨p + 1, by
        simp only [fetchRegReg, fetch8_some (byteAt_of_lt h1), fetch8_none (byteAt_of_le (show m.len ≤ p + 1 by omega))]⟩
    · exact ⟨p, by simp only [fetchRegReg, fetch8_none (byteAt_of_le h1)]⟩

/-- Fetching at an offset that holds a byte: an instruction of the byte's tag, if the program reaches as
far as the tag asks, and a failure if it does not (rules R72, R105). -/
theorem decodeFrom_byteAt (m : Memory) (p : Nat) {b : Byte} (h : m.byteAt p = some b) :
    (p + (decodeOpcode b).length ≤ m.len →
      ∃ i, decodeFrom m.byteAt p = .instr i (p + i.length) ∧ i.opcode = decodeOpcode b) ∧
    (m.len < p + (decodeOpcode b).length → ∃ n, decodeFrom m.byteAt p = .missing n) := by
  have hp := byteAt_lt h
  rw [decodeFrom, fetch8_some h]
  have imm : ∀ mk : Byte → Half → Instr, _ := fetchRegImm_byteAt m (p + 1)
  have reg : ∀ mk : Byte → Byte → Instr, _ := fetchRegReg_byteAt m (p + 1)
  cases hop : decodeOpcode b <;> simp only [Opcode.length]
  case halt => exact ⟨fun _ => ⟨_, rfl, rfl⟩, fun _ => by omega⟩
  case invalid => exact ⟨fun _ => ⟨_, rfl, rfl⟩, fun _ => by omega⟩
  case jump =>
    exact ⟨fun hl => ⟨_, fetch8_some (byteAt_of_lt (by omega)), rfl⟩,
      fun hl => ⟨_, fetch8_none (byteAt_of_le (by omega))⟩⟩
  case loadImmediate =>
    exact ⟨fun hl => let ⟨_, _, e⟩ := (imm .loadImmediate).1 (by omega); ⟨_, e, rfl⟩, fun hl => (imm _).2 (by omega)⟩
  case addImmediate =>
    exact ⟨fun hl => let ⟨_, _, e⟩ := (imm .addImmediate).1 (by omega); ⟨_, e, rfl⟩, fun hl => (imm _).2 (by omega)⟩
  case subtractImmediate =>
    exact ⟨fun hl => let ⟨_, _, e⟩ := (imm .subtractImmediate).1 (by omega); ⟨_, e, rfl⟩, fun hl => (imm _).2 (by omega)⟩
  case move =>
    exact ⟨fun hl => let ⟨_, _, e⟩ := (reg .move).1 (by omega); ⟨_, e, rfl⟩, fun hl => (reg _).2 (by omega)⟩
  case bitwiseAnd =>
    exact ⟨fun hl => let ⟨_, _, e⟩ := (reg .bitwiseAnd).1 (by omega); ⟨_, e, rfl⟩, fun hl => (reg _).2 (by omega)⟩
  case bitwiseOr =>
    exact ⟨fun hl => let ⟨_, _, e⟩ := (reg .bitwiseOr).1 (by omega); ⟨_, e, rfl⟩, fun hl => (reg _).2 (by omega)⟩
  case bitwiseXor =>
    exact ⟨fun hl => let ⟨_, _, e⟩ := (reg .bitwiseXor).1 (by omega); ⟨_, e, rfl⟩, fun hl => (reg _).2 (by omega)⟩

/-- A fetched instruction lies whole inside the program, and the offset after it is the PC plus its
length (rules R26, R72). -/
theorem fetchInstr_next {s : State} {i : Instr} {n : Nat} (h : s.fetchInstr = .instr i n) :
    n = s.pc + i.length ∧ n ≤ s.prog.len := by
  obtain ⟨h1, h2⟩ := decodeFrom_byteAt s.prog s.pc (byteAt_of_lt (fetchInstr_lt h))
  rw [State.fetchInstr] at h
  rcases Nat.lt_or_ge s.prog.len (s.pc + (decodeOpcode (lookupCell s.prog.cells s.pc)).length) with hl | hl
  · obtain ⟨n', e⟩ := h2 hl
    rw [e] at h; cases h
  · obtain ⟨i', e, ho⟩ := h1 hl
    rw [e] at h; cases h
    rw [Instr.length, ho]
    exact ⟨rfl, hl⟩

theorem step_latched {s : State} {f : Fault} (h : s.faultLatch = some f) : step s = .fault f := by
  simp [step, h]

theorem step_guard {s : State} (h : s.faultLatch = none) (hg : s.prog.len < s.pc) :
    step s = .next (s.endStep s.pc .halted) := by
  simp [step, h, (guardFires_iff s).2 hg, guardHalt]

theorem step_missing {s : State} (h : s.faultLatch = none) (hg : s.pc ≤ s.prog.len) {a : Nat}
    (hf : s.fetchInstr = .missing a) : step s = .next (takeFault (.fetchOutOfRange a) s) := by
  have : ¬ s.guardFires = true := by rw [guardFires_iff]; omega
  simp [step, h, this, hf, raiseFault]

theorem step_instr {s : State} (h : s.faultLatch = none) (hg : s.pc ≤ s.prog.len) {i : Instr} {n : Nat}
    (hf : s.fetchInstr = .instr i n) : step s = exec i s := by
  have : ¬ s.guardFires = true := by rw [guardFires_iff]; omega
  simp [step, h, this, hf]

/-- A step to a next state starts with no fault latched, and is the guard's halt, a failed fetch, or the
fetched instruction. -/
theorem step_cases {s t : State} (h : step s = .next t) :
    s.faultLatch = none ∧
    ((s.prog.len < s.pc ∧ t = s.endStep s.pc .halted) ∨
      (s.pc ≤ s.prog.len ∧
        ((∃ a, s.fetchInstr = .missing a ∧ t = takeFault (.fetchOutOfRange a) s) ∨
          ∃ i n, s.fetchInstr = .instr i n ∧ exec i s = .next t))) := by
  have hl : s.faultLatch = none := by
    cases hl : s.faultLatch with
    | none => rfl
    | some f => simp [step_latched hl] at h
  refine ⟨hl, ?_⟩
  by_cases hg : s.prog.len < s.pc
  · rw [step_guard hl hg] at h
    exact .inl ⟨hg, by cases h; rfl⟩
  · have hg := Nat.le_of_not_lt hg
    refine .inr ⟨hg, ?_⟩
    cases hf : s.fetchInstr with
    | missing a =>
      rw [step_missing hl hg hf] at h
      exact .inl ⟨a, rfl, by cases h; rfl⟩
    | instr i n => exact .inr ⟨i, n, rfl, by rw [← step_instr hl hg hf]; exact h⟩

/-! ### Several steps -/

/-- A run of `k + 1` steps is a step and a run of `k`. -/
theorem coreRun_next {s u : State} (h : step s = .next u) (k : Nat) : core.run (k + 1) s = core.run k u := by
  have h' : core.step s = .next u := h
  simp only [Host.Core.run, h']

/-- With a fault latched a run of one step or more is stopped. -/
theorem coreRun_latched {s : State} {f : Fault} (h : s.faultLatch = some f) (k : Nat) :
    core.run (k + 1) s = .fault f := by
  have h' : core.step s = .fault f := step_latched h
  simp only [Host.Core.run, h']

end Sys2Proof.Machine
end

