-- ==== Sys2Proof/Tests/Slice0.lean ====
section
/-! SUPPORT. The model's own tests. Expected results come from the spec: the encodings of rules R71 and R76
and the vectors of `95_test_vectors.md`, named in each comment. The witnesses at the end show, for every
obligation with hypotheses, states and operands that meet them all. -/

namespace Sys2Proof.Tests

open Sys2Proof.Machine

/-! ### Helpers -/

/-- A fresh machine with a program loaded and the PC set (`95_test_vectors.md`, "Fresh"). -/
def fresh (bytes : List Byte) (pc : Nat := 0) : State :=
  { State.reset with prog := Memory.ofBytes bytes, pc := pc }

/-- A state with the fault of V-F1 latched. -/
def stopped : State := { fresh [0x02, 0x28, 0x32] with faultLatch := some (.registerOutOfRange 40), report := .faulted (.registerOutOfRange 40) }

/-- What a test looks at after a step: the PC, the report, FAULT and one register. -/
def after (r : Result) (i : Fin 32) : Option (Nat × Report × Option Fault × Word) :=
  match r with
  | .next t => some (t.pc, t.report, t.faultLatch, t.getReg i)
  | .fault _ => none
  | .refused _ => none

/-- As `after`, without the PC, which is unspecified after a fault (rule R179). -/
def faultAfter (r : Result) (i : Fin 32) : Option (Report × Option Fault × Word) :=
  match r with
  | .next t => some (t.report, t.faultLatch, t.getReg i)
  | .fault _ => none
  | .refused _ => none

/-! ### Well-formedness: the one check, and what it lets through -/

theorem test_wellFormed_refuses_invalid_08 : (Instr.invalid 0x08).wellFormed = false := by decide
theorem test_wellFormed_invalid_09 : (Instr.invalid 0x09).wellFormed = true := by decide
theorem test_wellFormed_register_255 : (Instr.move 0xFF 0x20).wellFormed = true := by decide

/-! ### Decoding: words written out from rules R71 and R76 -/

theorem test_decode_halt : decode [0x00] = .instr .halt 1 := by decide
theorem test_decode_loadImmediate :
    decode [0x01, 0x04, 0x02, 0x00] = .instr (.loadImmediate 4 512) 4 := by decide  -- S4
theorem test_decode_move : decode [0x02, 0x02, 0x01] = .instr (.move 2 1) 3 := by decide  -- S5
theorem test_decode_addImmediate :
    decode [0x03, 0x01, 0x00, 0x07] = .instr (.addImmediate 1 7) 4 := by decide  -- S6
theorem test_decode_subtractImmediate :
    decode [0x04, 0x01, 0x37, 0x13] = .instr (.subtractImmediate 1 0x3713) 4 := by decide  -- V-S6
theorem test_decode_bitwiseAnd : decode [0x05, 0x01, 0x02] = .instr (.bitwiseAnd 1 2) 3 := by decide
theorem test_decode_bitwiseOr : decode [0x06, 0x00, 0x01] = .instr (.bitwiseOr 0 1) 3 := by decide
theorem test_decode_bitwiseXor : decode [0x07, 0x01, 0x02] = .instr (.bitwiseXor 1 2) 3 := by decide
theorem test_decode_jump : decode [0x08, 0x06] = .instr (.jump 6) 2 := by decide  -- V-J1
theorem test_decode_invalid : decode [0x09, 0x00] = .instr (.invalid 9) 1 := by decide  -- V-H2
theorem test_decode_truncated : decode [0x01, 0x04, 0x02] = .missing 3 := by decide  -- V-L6
theorem test_decode_empty : decode [] = .missing 0 := by decide  -- V-G4
theorem test_encode_loadImmediate : encode (.loadImmediate 31 0x1234) = [0x01, 0x1F, 0x12, 0x34] := by
  decide  -- V-L4
/-- Bits 7..0 are byte 0: `01 04 02 00` is the number 0x00020401. -/
theorem test_decodeTableWord : decodeTableWord 32 0x00020401 = some (.loadImmediate 4 512) := by decide
/-- The bits above the row's are zero. -/
theorem test_decodeTableWord_short : decodeTableWord 8 0x07 = some (.bitwiseXor 0 0) := by decide
/-- Every row of the opcode table, with operand bytes of zeros. -/
theorem test_decodeTableWord_rows :
    (List.range 10).map (decodeTableWord 8) =
      [some .halt, some (.loadImmediate 0 0), some (.move 0 0), some (.addImmediate 0 0),
       some (.subtractImmediate 0 0), some (.bitwiseAnd 0 0), some (.bitwiseOr 0 0),
       some (.bitwiseXor 0 0), some (.jump 0), some (.invalid 9)] := by decide

/-! ### One step of each instruction -/

theorem test_halt : after (step (fresh [0x00])) 0 = some (1, .halted, none, 0) := by decide  -- S2
theorem test_invalid : after (step (fresh [0xFF])) 0 = some (1, .halted, none, 0) := by decide  -- S3
theorem test_loadImmediate :
    after (step (fresh [0x01, 0x04, 0x02, 0x00])) 4 = some (4, .running, none, 0x200) := by decide  -- S4
theorem test_loadImmediate_zero_extends :
    after (step (fresh [0x01, 0x05, 0x80, 0x00])) 5 = some (4, .running, none, 0x8000) := by decide  -- V-L3
theorem test_move :
    after (step ((fresh [0x02, 0x0A, 0x0B]).setReg 11 0x80000001)) 10 =
      some (3, .running, none, 0x80000001) := by decide  -- V-M2
theorem test_move_faults_on_dest_first :
    faultAfter (step (fresh [0x02, 0x28, 0x32])) 0 =
      some (.faulted (.registerOutOfRange 40), some (.registerOutOfRange 40), 0) := by decide  -- V-F1
theorem test_addImmediate_wraps :
    after (step ((fresh [0x03, 0x01, 0xFF, 0xFF]).setReg 1 0xFFFFFFFF)) 1 =
      some (4, .running, none, 0xFFFE) := by decide  -- V-A7
theorem test_addImmediate_is_32_bits :
    after (step ((fresh [0x03, 0x01, 0x00, 0x01]).setReg 1 0xFFFF)) 1 =
      some (4, .running, none, 0x10000) := by decide  -- V-A6
theorem test_subtractImmediate_wraps :
    after (step ((fresh [0x04, 0x01, 0x00, 0x01]).setReg 1 0x80000000)) 1 =
      some (4, .running, none, 0x7FFFFFFF) := by decide  -- V-S3
theorem test_subtractImmediate_below_zero :
    after (step (fresh [0x04, 0x01, 0xFF, 0xFF])) 1 = some (4, .running, none, 0xFFFF0001) := by
  decide  -- V-S5
theorem test_bitwiseAnd :
    after (step (((fresh [0x05, 0x01, 0x02]).setReg 1 0xFFFFFFF0).setReg 2 0x8000000F)) 1 =
      some (3, .running, none, 0x80000000) := by decide  -- V-B12
theorem test_bitwiseOr :
    after (step (((fresh [0x06, 0x01, 0x02]).setReg 1 7).setReg 2 10)) 1 =
      some (3, .running, none, 0xF) := by decide  -- V-B2
theorem test_bitwiseXor :
    after (step (((fresh [0x07, 0x01, 0x02]).setReg 1 7).setReg 2 10)) 1 =
      some (3, .running, none, 0xD) := by decide  -- V-B3
theorem test_bitwiseXor_same_register :
    after (step ((fresh [0x07, 0x03, 0x03]).setReg 3 0xF0F0A5A5)) 3 = some (3, .running, none, 0) := by
  decide  -- V-B6
theorem test_jump : after (step (fresh [0x08, 0xFF])) 0 = some (255, .running, none, 0) := by
  decide  -- V-J6
theorem test_jump_truncated :
    faultAfter (step (fresh [0x08])) 0 =
      some (.faulted (.fetchOutOfRange 1), some (.fetchOutOfRange 1), 0) := by decide  -- V-J7

/-! ### Guard, fetch, faults, commands -/

theorem test_guard : after (step (fresh [0x00, 0x00] 3)) 0 = some (3, .halted, none, 0) := by
  decide  -- V-G3
theorem test_pc_at_len :
    faultAfter (step (fresh [0x00, 0x00] 2)) 0 =
      some (.faulted (.fetchOutOfRange 2), some (.fetchOutOfRange 2), 0) := by decide  -- V-G2
theorem test_step_from_reset :
    faultAfter (step State.reset) 0 =
      some (.faulted (.fetchOutOfRange 0), some (.fetchOutOfRange 0), 0) := by decide  -- V-G4
theorem test_fetch_fault_before_register_fault :
    faultAfter (step (fresh [0x02, 0x28])) 0 =
      some (.faulted (.fetchOutOfRange 2), some (.fetchOutOfRange 2), 0) := by decide  -- V-M8
theorem test_step_refused_after_fault : command 100 10 .step stopped = (stopped, .refused) := by
  decide  -- V-F3
theorem test_regWrite_refused_after_fault :
    command 100 10 (.regWrite 0 1) stopped = (stopped, .refused) := by decide  -- V-F4
theorem test_step_command_halts :
    (command 100 10 .step (fresh [0x00])).2 = .stepped .halted ∧
      (command 100 10 .step (fresh [0x00])).1.pc = 1 := by decide
theorem test_observe_pc : (command 100 10 .observePc (fresh [0x00] 1)).2 = .pc 1 := by decide
theorem test_observe_fault : (command 100 10 .observeFault stopped).2 = .fault 1 (some 40) := by decide  -- V-F1
theorem test_observe_no_fault : (command 100 10 .observeFault State.reset).2 = .fault 0 none := by decide
theorem test_reset_after_fault : (command 100 10 .reset stopped).1 = State.reset := by decide  -- V-F6
/-- P6, 3: the second program starts at the old PC 5, whose byte `00` decodes as HALT. -/
theorem test_load_keeps_pc :
    after (step (loadProgram [0x03, 0x00, 0x00, 0x01, 0x03, 0x00, 0x00, 0x01, 0x00] (fresh [] 5))) 0 =
      some (6, .halted, none, 0) := by decide
/-- P2: three steps, `x[1] = 42`. -/
theorem test_run_p2 :
    ((command 100 3 .run (fresh [0x08, 0x06, 0x01, 0x00, 0xDE, 0xAD, 0x01, 0x01, 0x00, 0x2A, 0x00])).1.getReg 1,
      (command 100 3 .run (fresh [0x08, 0x06, 0x01, 0x00, 0xDE, 0xAD, 0x01, 0x01, 0x00, 0x2A, 0x00])).2) =
      (0x2A, .done) := by decide
/-- V-J2: `JUMP 0` at offset 0 is still running when the fuel is used up. -/
theorem test_run_unfinished : (command 100 5 .run (fresh [0x08, 0x00])).2 = .unfinished := by decide
/-- An instruction placed after reset is the first one fetched, and runs. -/
theorem test_withFetchWord :
    after (step (State.reset.withFetchWord 32 0x00020401)) 4 = some (4, .running, none, 0x200) := by decide
theorem test_withFetchWord_fetches : (State.reset.withFetchWord 8 0x07).fetchInstr = .instr (.bitwiseXor 0 0) 3 := by
  decide

/-! ### Witnesses: the hypotheses of each obligation are met -/

theorem witness_OperandsAreReadAsLaidOut :
    decodeOpcode 0x00 = .halt ∧ decodeOpcode 0x09 = .invalid ∧ decodeOpcode 0xFF = .invalid ∧
    decodeOpcode 0x08 = .jump ∧ decodeOpcode 0x02 = .move ∧ decodeOpcode 0x05 = .bitwiseAnd ∧
    decodeOpcode 0x06 = .bitwiseOr ∧ decodeOpcode 0x07 = .bitwiseXor ∧
    decodeOpcode 0x01 = .loadImmediate ∧ decodeOpcode 0x03 = .addImmediate ∧
    decodeOpcode 0x04 = .subtractImmediate := by decide

theorem witness_OpcodeByteDecidesLength :
    (decodeOpcode 0x01).length ≤ [0x01#8, 0x00, 0x00, 0x00].length ∧
    ¬ (decodeOpcode 0x01).length ≤ [0x01#8, 0x00, 0x00].length := by decide

theorem witness_DecodeOfEncodeIsTheInstruction :
    (Instr.invalid 9).wellFormed = true ∧ (Instr.invalid 255).wellFormed = true ∧
    (Instr.loadImmediate 255 0xFFFF).wellFormed = true := by decide

theorem witness_EncodeOfDecodeIsTheBytes :
    decode [0x01, 0x04, 0x02, 0x00, 0x07] = .instr (.loadImmediate 4 512) 4 ∧
    decode [0x09] = .instr (.invalid 9) 1 := by decide

theorem witness_FetchReadsTheBytesAtThePc :
    (fresh [0x00] 0).pc ≤ (fresh [0x00] 0).prog.len ∧ (fresh [0x00] 1).pc ≤ (fresh [0x00] 1).prog.len := by
  decide

theorem witness_StepRunsTheDecodedInstruction :
    (fresh [0xFF, 0x08, 0x06] 1).ready ∧ (Instr.jump 6).wellFormed = true ∧
    decode ((fresh [0xFF, 0x08, 0x06] 1).prog.toBytes.drop (fresh [0xFF, 0x08, 0x06] 1).pc) =
      .instr (.jump 6) 2 := by decide

theorem witness_GuardHaltsWithoutSideEffects :
    (fresh [0x00] 2).ready ∧ (fresh [0x00] 2).prog.len < (fresh [0x00] 2).pc := by decide

theorem witness_GuardIsStrict :
    ((fresh [0x00] 1).ready ∧ (fresh [0x00] 1).pc = (fresh [0x00] 1).prog.len) ∧
    ∃ t, (fresh [0x00] 2).ready ∧ (fresh [0x00] 2).prog.len < (fresh [0x00] 2).pc ∧
      step (fresh [0x00] 2) = .next t := ⟨by decide, _, by decide, by decide, rfl⟩

theorem witness_ReportIsHaltedInExactlyThreeCases :
    ∃ t, step (fresh [0x09]) = .next t ∧ t.report = .halted := ⟨_, rfl, rfl⟩

theorem witness_PcAdvanceTable : ∃ t, step (fresh [0x08, 0x00]) = .next t ∧ t.ready := ⟨_, rfl, rfl⟩

theorem witness_StepNeverOversteps :
    (∃ t, step (fresh [0x00]) = .next t) ∧
    stopped.faultLatch = some (.registerOutOfRange 40) ∧
    ((fresh [0x00, 0x01]).fetchInstr = .instr .halt 1 ∧
      (Memory.ofBytes [0x00, 0x02]).len = (fresh [0x00, 0x01]).prog.len ∧
      (∀ a, (fresh [0x00, 0x01]).pc ≤ a → a < 1 →
        (Memory.ofBytes [0x00, 0x02]).byteAt a = (fresh [0x00, 0x01]).prog.byteAt a)) ∧
    ((fresh [0x08, 0xFF]).ready ∧ (fresh [0x08, 0xFF]).pc ≤ (fresh [0x08, 0xFF]).prog.len ∧
      (fresh [0x08, 0xFF]).fetchInstr = .instr (.jump 0xFF) 2) := by
  refine ⟨⟨_, rfl⟩, by decide, ⟨by decide, by decide, fun a _ h => ?_⟩, by decide⟩
  obtain rfl : a = 0 := by omega
  rfl

theorem witness_OutcomeIsAFunctionOfPcRegistersProgram :
    (fresh [0x00]).ready ∧ ({ fresh [0x00] with report := .halted, freeCount := 7 } : State).ready ∧
    ({ fresh [0x00] with report := .halted, freeCount := 7 } : State).pc = (fresh [0x00]).pc ∧
    ({ fresh [0x00] with report := .halted, freeCount := 7 } : State).regs = (fresh [0x00]).regs ∧
    ({ fresh [0x00] with report := .halted, freeCount := 7 } : State).prog = (fresh [0x00]).prog ∧
    ∃ t, runFor 1 (fresh [0x00]) = .ended t :=
  ⟨rfl, rfl, rfl, rfl, rfl, _, rfl⟩

theorem witness_HaltOnlyMovesThePc :
    ((fresh [0x00]).ready ∧ (fresh [0x00]).pc + 1 = (fresh [0x00]).prog.len) ∧
    ((fresh [0x00, 0x08, 0x00]).ready ∧ (fresh [0x00, 0x08, 0x00]).pc + 1 < (fresh [0x00, 0x08, 0x00]).prog.len ∧
      decodeFrom (fresh [0x00, 0x08, 0x00]).prog.byteAt ((fresh [0x00, 0x08, 0x00]).pc + 1) =
        .instr (.jump 0) 3) := by decide

/-- Register fields at both ends of the range; serves LoadImmediateLoadsTheValue, MoveCopiesTheRegister,
AddAndSubtractImmediateWrap, ArithmeticLaws and BitwiseInstructionsActBitByBit. -/
theorem witness_register_fields_in_range : (0#8).toNat < 32 ∧ (31#8).toNat < 32 := by decide

theorem witness_BitwiseLaws :
    ((0#8).toNat < 32 ∧ (31#8).toNat < 32 ∧
      signed32 ((State.reset.setReg 31 0xFFFFFFFF).getReg 31) = -1) ∧
    (∃ t, exec (.bitwiseAnd 0 31) (State.reset.setReg 31 0xFFFFFFFF) = .next t) ∧
    (∃ t, exec (.bitwiseOr 0 31) (State.reset.setReg 31 0xFFFFFFFF) = .next t) ∧
    (∃ t, exec (.bitwiseXor 0 31) (State.reset.setReg 31 0xFFFFFFFF) = .next t) :=
  ⟨by decide, ⟨_, rfl⟩, ⟨_, rfl⟩, ⟨_, rfl⟩⟩

theorem witness_JumpAssignsThePc :
    ((fresh [0x00, 0x08, 0x01] 1).ready ∧ (fresh [0x00, 0x08, 0x01] 1).pc ≤ (fresh [0x00, 0x08, 0x01] 1).prog.len ∧
      (fresh [0x00, 0x08, 0x01] 1).fetchInstr = .instr (.jump 1) 3 ∧
      (1#8).toNat = (fresh [0x00, 0x08, 0x01] 1).pc) ∧
    ((fresh [0x08]).ready ∧ (fresh [0x08]).pc + 1 = (fresh [0x08]).prog.len ∧
      (fresh [0x08]).prog.byteAt (fresh [0x08]).pc = some 0x08 ∧ decodeOpcode 0x08 = .jump) := by decide

theorem witness_StepAfterJumpByTarget :
    (fresh [0x08, 0x01, 0x00]).ready ∧ (∃ t, exec (.jump 2) (fresh [0x08, 0x01, 0x00]) = .next t) ∧
    (∃ t, exec (.jump 3) (fresh [0x08, 0x01, 0x00]) = .next t) ∧
    (∃ t, exec (.jump 4) (fresh [0x08, 0x01, 0x00]) = .next t) ∧
    ((2#8).toNat < (fresh [0x08, 0x01, 0x00]).prog.len ∧
      (decodeOpcode 0x00).length ≤ (fresh [0x08, 0x01, 0x00]).prog.len - (2#8).toNat) ∧
    (3#8).toNat = (fresh [0x08, 0x01, 0x00]).prog.len ∧
    (fresh [0x08, 0x01, 0x00]).prog.len < (4#8).toNat :=
  ⟨rfl, ⟨_, rfl⟩, ⟨_, rfl⟩, ⟨_, rfl⟩, by decide, by decide, by decide⟩

theorem witness_EveryValueAndTargetIsLegal :
    State.reset.ready ∧ (31#8).toNat < 32 ∧
    Instr.loadImmediate 31 0xFFFF ∈
      [Instr.loadImmediate 31 0xFFFF, .addImmediate 31 0xFFFF, .subtractImmediate 31 0xFFFF] := by decide

theorem witness_RegistersReadAndWritten :
    (∃ t, exec (.loadImmediate 0 1) State.reset = .next t ∧ t.getReg 0 ≠ State.reset.getReg 0) ∧
    (fieldsInRange (.move 0 31) ∧ writtenField (.move 0 31) = some 0 ∧ (0#8).toNat = (0 : Fin 32).val ∧
      (∀ q : Fin 32, (∃ g ∈ readFields (.move 0 31), g.toNat = q.val) →
        (State.reset.setReg 5 9).getReg q = State.reset.getReg q) ∧
      (∃ t, exec (.move 0 31) State.reset = .next t) ∧
      ∃ t, exec (.move 0 31) (State.reset.setReg 5 9) = .next t) := by
  refine ⟨⟨_, rfl, by decide⟩, by simp [fieldsInRange, Instr.regFields], rfl, rfl, ?_, ⟨_, rfl⟩, ⟨_, rfl⟩⟩
  decide

theorem witness_InstructionFrame :
    (∃ t, exec (.move 0 31) State.reset = .next t) ∧ fieldsInRange (.move 0 31) ∧
    (∃ t, exec (.move 0 32) State.reset = .next t) ∧ ¬ fieldsInRange (.move 0 32) :=
  ⟨⟨_, rfl⟩, by simp [fieldsInRange, Instr.regFields], ⟨_, rfl⟩, by simp [fieldsInRange, Instr.regFields]⟩

theorem witness_EveryRegisterFieldIsChecked :
    (∃ f ∈ (Instr.move 31 32).regFields, 32 ≤ f.toNat) ∧
    (∃ f ∈ (Instr.loadImmediate 255 0).regFields, 32 ≤ f.toNat) ∧
    (∀ f ∈ (Instr.move 31 0).regFields, f.toNat < 32) := by decide

theorem witness_FaultPriority :
    (∃ t, step (fresh [0x02, 0x28]) = .next t) ∧ (fresh [0x02, 0x28]).pc ≤ (fresh [0x02, 0x28]).prog.len ∧
    (∃ t, step (fresh [0x02, 0x28, 0x32]) = .next t) ∧
    (fresh [0x02, 0x28, 0x32]).pc ≤ (fresh [0x02, 0x28, 0x32]).prog.len :=
  ⟨⟨_, rfl⟩, by decide, ⟨_, rfl⟩, by decide⟩

theorem witness_FetchFailsExactlyWhenTruncated :
    ((fresh [0x08] 0).ready ∧ (fresh [0x08] 0).pc ≤ (fresh [0x08] 0).prog.len) ∧
    ((fresh [0x08] 1).ready ∧ (fresh [0x08] 1).pc ≤ (fresh [0x08] 1).prog.len) := by decide

theorem witness_FaultIsPreciseAndFinal :
    (∃ t, step (fresh [0x05, 0x20, 0x01]) = .next t ∧ t.faultLatch = some (.registerOutOfRange 32)) ∧
    ∃ t, step (fresh [0x08]) = .next t ∧ t.faultLatch = some (.fetchOutOfRange 1) :=
  ⟨⟨_, rfl, rfl⟩, _, rfl, rfl⟩

theorem witness_StepAnswersExactlyWhenReady :
    State.reset.ready ∧ stopped.faultLatch = some (.registerOutOfRange 40) := by decide

theorem witness_LoadProgramReplacesTheBuffer :
    (State.reset.ready ∧ [0x00#8, 0xFF, 0x00].length ≤ 3) ∧ ¬ stopped.ready ∧ 2 < [0x00#8, 0xFF, 0x00].length := by
  decide

theorem witness_LoadAndHaltResetNothing :
    (∃ t, step (fresh [0x00]) = .next t ∧ t.report = .halted) ∧
    ∃ t, step (fresh [] 1) = .next t ∧ t.report = .halted := ⟨⟨_, rfl, rfl⟩, _, rfl, rfl⟩

theorem witness_HostRegisterAccess : 31 < 32 ∧ State.reset.ready ∧ 32 ≤ 32 ∧ ¬ stopped.ready := by decide

theorem witness_LatchedFaultBlocksCommands :
    stopped.faultLatch = some (.registerOutOfRange 40) ∧ Command.step ∈ [Command.step, .run] ∧
    (∃ bytes, Command.loadProgram [] = .loadProgram bytes) ∧
    ∃ i v, Command.regWrite 0 1 = .regWrite i v := ⟨rfl, by decide, ⟨_, rfl⟩, _, _, rfl⟩

theorem witness_WhoWritesEachPieceOfState :
    (∃ t r, command 3 0 (.loadProgram [0xFF]) State.reset = (t, r) ∧ t.prog ≠ State.reset.prog) ∧
    (∃ t r, command 3 0 (.regWrite 31 1) State.reset = (t, r) ∧ t.regs ≠ State.reset.regs) ∧
    (∃ t r, command 3 0 .step (fresh [0x00]) = (t, r) ∧ t.pc ≠ (fresh [0x00]).pc) ∧
    (∃ t r, command 3 0 .step (fresh [0x08]) = (t, r) ∧ t.faultLatch ≠ (fresh [0x08]).faultLatch) ∧
    (∃ t r, command 3 0 .reset stopped = (t, r) ∧ ¬ stopped.ready ∧ t.ready) :=
  ⟨⟨_, _, rfl, by decide⟩, ⟨_, _, rfl, by decide⟩, ⟨_, _, rfl, by decide⟩,
    ⟨_, _, rfl, by decide⟩, _, _, rfl, by decide, by decide⟩

theorem witness_LoadAndSeedInEitherOrder :
    State.reset.ready ∧ [0x00#8, 0xFF].length ≤ 2 ∧ 31 < 32 := by decide

theorem witness_ObservingPcAndFault : (fresh [0x00] 1).ready ∧ ¬ stopped.ready := by decide

/-- With fuel 2 the run ends, with fuel 1 it is unfinished. -/
theorem witness_RunIsRepeatedStep :
    (fresh [0x08, 0x02, 0x00]).ready ∧ (∃ t, runFor 2 (fresh [0x08, 0x02, 0x00]) = .ended t) ∧
    ∃ t, runFor 1 (fresh [0x08, 0x02, 0x00]) = .unfinished t := ⟨rfl, ⟨_, rfl⟩, _, rfl⟩

/-- One state for each of the three ends of a run. -/
theorem witness_EndOfARun :
    ((fresh [0x00]).ready ∧ ∃ t, EndsCleanly (fresh [0x00]) t) ∧
    ((fresh [0x08]).ready ∧ ∃ t, EndsInFault (fresh [0x08]) t (.fetchOutOfRange 1)) ∧
    (fresh [0x08, 0x00]).ready :=
  ⟨⟨rfl, _, 1, rfl, rfl⟩, ⟨rfl, _, 1, rfl, rfl, rfl⟩, rfl⟩

theorem witness_StepKeepsInvariant :
    MachineInv 2 (fresh [0x08, 0x00]) ∧ ∃ t, step (fresh [0x08, 0x00]) = .next t :=
  ⟨⟨rfl, ⟨by decide, by decide⟩, fun f => by simp [fresh, State.reset]⟩, _, rfl⟩

theorem witness_CommandKeepsInvariant : 2 ≤ 2 ∧ MachineInv 2 (fresh [0x08, 0x00]) :=
  ⟨Nat.le_refl 2, witness_StepKeepsInvariant.1⟩

theorem witness_RegistersNeverSteerControl :
    (fresh [0x08, 0x00]).ready ∧ ((fresh [0x08, 0x00]).setReg 0 1).ready ∧
    ((fresh [0x08, 0x00]).setReg 0 1).pc = (fresh [0x08, 0x00]).pc ∧
    ((fresh [0x08, 0x00]).setReg 0 1).prog = (fresh [0x08, 0x00]).prog ∧
    ((fresh [0x08, 0x00]).setReg 0 1).report = (fresh [0x08, 0x00]).report ∧
    ∃ t, core.run 2 (fresh [0x08, 0x00]) = .next t := ⟨rfl, rfl, rfl, rfl, rfl, _, rfl⟩

theorem witness_TerminatingRunsAreShort :
    (fresh [0x08, 0x02, 0x00]).ready ∧ ∃ t, runFor 300 (fresh [0x08, 0x02, 0x00]) = .ended t :=
  ⟨rfl, _, rfl⟩

end Sys2Proof.Tests
end

section
/-! SUPPORT. Determinism (rule R9): a step reads PC, registers, program and FAULT, and neither the report
of the step before it nor the count of free values. -/

namespace Sys2Proof.Machine

/-! ### A step's end, and a run's first step -/

/-- From a ready state an instruction ends in a ready state, or takes a fault at its own state. -/
theorem exec_ready_or_takeFault {i : Instr} {s t : State} (hs : s.ready) (h : exec i s = .next t) :
    t.ready ∨ ∃ f, t = takeFault f s := by
  obtain ⟨f, -, e⟩ | ⟨-, ⟨d, v, -, e⟩ | ⟨-, e⟩⟩ := exec_cases i s <;> rw [e] at h <;> cases h
  · exact .inr ⟨_, rfl⟩
  · exact .inl hs
  · exact .inl hs

/-- A step ends in a ready state, or takes a fault at the state it began in. -/
theorem step_ready_or_takeFault {s t : State} (h : step s = .next t) :
    t.ready ∨ ∃ f, t = takeFault f s := by
  obtain ⟨hs, ⟨-, rfl⟩ | ⟨-, ⟨a, -, rfl⟩ | ⟨i, n, -, hx⟩⟩⟩ := step_cases h
  · exact .inl hs
  · exact .inr ⟨_, rfl⟩
  · exact exec_ready_or_takeFault hs hx

/-- A step that reports running latches no fault. -/
theorem ready_of_step_running {s t : State} (h : step s = .next t) (hr : t.report = .running) : t.ready := by
  obtain ht | ⟨f, rfl⟩ := step_ready_or_takeFault h
  · exact ht
  · simp at hr

/-- A run goes on after its first step exactly when that step reports running (rule R108). -/
theorem runFor_succ {s t : State} (h : step s = .next t) (fuel : Nat) :
    runFor (fuel + 1) s = if t.report = .running then runFor fuel t else .ended t := by
  simp only [runFor, h]

/-! ### What a step reads, and what its outcome is -/

/-- The two states agree on what a step reads: PC, registers, program and FAULT. -/
structure SameInputs (s s' : State) : Prop where
  pc : s'.pc = s.pc
  regs : s'.regs = s.regs
  prog : s'.prog = s.prog
  faultLatch : s'.faultLatch = s.faultLatch

/-- The two states are one outcome of a step: all that the spec specifies agrees, which the PC is only
while no fault is latched (rule R179). -/
structure SameOutcome (t t' : State) : Prop where
  report : t'.report = t.report
  regs : t'.regs = t.regs
  prog : t'.prog = t.prog
  faultLatch : t'.faultLatch = t.faultLatch
  pc : t.ready → t'.pc = t.pc

/-- Both results are next states, and those are one outcome. -/
def SameResult (r r' : Result) : Prop := ∃ t t', r = .next t ∧ r' = .next t' ∧ SameOutcome t t'

/-- While no fault is latched, the next step reads the same after the same outcome. -/
theorem SameOutcome.sameInputs {t t' : State} (h : SameOutcome t t') (ht : t.ready) : SameInputs t t' :=
  ⟨h.pc ht, h.regs, h.prog, h.faultLatch⟩

namespace SameInputs

variable {s s' : State}

theorem setReg (h : SameInputs s s') (d : Fin 32) (v : Word) : SameInputs (s.setReg d v) (s'.setReg d v) :=
  ⟨h.pc, by simp only [State.setReg, h.regs], h.prog, h.faultLatch⟩

theorem sameOutcome_endStep (h : SameInputs s s') (pc : Nat) (r : Report) :
    SameOutcome (s.endStep pc r) (s'.endStep pc r) :=
  ⟨rfl, h.regs, h.prog, h.faultLatch, fun _ => rfl⟩

/-- The free value that the PC takes may differ: the fault is latched. -/
theorem sameOutcome_takeFault (h : SameInputs s s') (f : Fault) :
    SameOutcome (takeFault f s) (takeFault f s') :=
  ⟨rfl, h.regs, h.prog, rfl, fun hr => by simp [State.ready] at hr⟩

theorem fetchInstr_eq (h : SameInputs s s') : s'.fetchInstr = s.fetchInstr := by
  simp only [State.fetchInstr, h.pc, h.prog]

/-- The register check faults on both sides or goes on with the same register on both. -/
theorem sameResult_withReg (h : SameInputs s s') (field : Byte) {k k' : Fin 32 → Result}
    (hk : ∀ r, SameResult (k r) (k' r)) : SameResult (withReg field s k) (withReg field s' k') := by
  by_cases hf : field.toNat < 32
  · rw [withReg_ok hf, withReg_ok hf]
    exact hk _
  · have hf : 32 ≤ field.toNat := Nat.le_of_not_lt hf
    exact ⟨_, _, withReg_bad hf s k, withReg_bad hf s' k', h.sameOutcome_takeFault _⟩

/-- Both complete with the same value written to the same register. -/
theorem sameResult_completeRunning_setReg (h : SameInputs s s') (n : Nat) (d : Fin 32)
    {v v' : Word} (hv : v' = v) :
    SameResult (completeRunning n (s.setReg d v)) (completeRunning n (s'.setReg d v')) := by
  subst hv
  refine ⟨_, _, rfl, rfl, ?_⟩
  rw [setReg_pc, setReg_pc, h.pc]
  exact (h.setReg d _).sameOutcome_endStep _ _

theorem sameResult_regImmOp (h : SameInputs s s') (f : Word → Word → Word) (reg : Byte) (value : Half) :
    SameResult (regImmOp f reg value s) (regImmOp f reg value s') :=
  h.sameResult_withReg reg fun r => h.sameResult_completeRunning_setReg 4 r (by rw [getReg_congr h.regs])

theorem sameResult_regRegOp (h : SameInputs s s') (f : Word → Word → Word) (dest src : Byte) :
    SameResult (regRegOp f dest src s) (regRegOp f dest src s') :=
  h.sameResult_withReg dest fun d => h.sameResult_withReg src fun r =>
    h.sameResult_completeRunning_setReg 3 d (by rw [getReg_congr h.regs, getReg_congr h.regs])

/-- HALT and INVALID: one byte on, halted. -/
theorem sameResult_completeHalted (h : SameInputs s s') (n : Nat) :
    SameResult (completeHalted n s) (completeHalted n s') :=
  ⟨_, _, rfl, rfl, by rw [h.pc]; exact h.sameOutcome_endStep _ _⟩

theorem sameResult_exec (h : SameInputs s s') (i : Instr) : SameResult (exec i s) (exec i s') := by
  cases i with
  | halt => exact h.sameResult_completeHalted 1
  | invalid _ => exact h.sameResult_completeHalted 1
  | jump _ => exact ⟨_, _, rfl, rfl, h.sameOutcome_endStep _ _⟩
  | loadImmediate reg value => exact h.sameResult_regImmOp (fun _ m => m) reg value
  | addImmediate reg value => exact h.sameResult_regImmOp _ reg value
  | subtractImmediate reg value => exact h.sameResult_regImmOp _ reg value
  | move dest src => exact h.sameResult_regRegOp (fun _ b => b) dest src
  | bitwiseAnd dest src => exact h.sameResult_regRegOp _ dest src
  | bitwiseOr dest src => exact h.sameResult_regRegOp _ dest src
  | bitwiseXor dest src => exact h.sameResult_regRegOp _ dest src

/-- The guard, the fetch and the instruction each go the same way on both sides. -/
theorem sameResult_step (h : SameInputs s s') (hs : s.ready) : SameResult (step s) (step s') := by
  have hs' : s'.ready := h.faultLatch.trans hs
  by_cases hg : s.prog.len < s.pc
  · have hg' : s'.prog.len < s'.pc := by rwa [h.pc, h.prog]
    exact ⟨_, _, step_guard hs hg, step_guard hs' hg', by rw [h.pc]; exact h.sameOutcome_endStep _ _⟩
  · have hg : s.pc ≤ s.prog.len := Nat.le_of_not_lt hg
    have hg' : s'.pc ≤ s'.prog.len := by rwa [h.pc, h.prog]
    cases hf : s.fetchInstr with
    | missing a =>
      exact ⟨_, _, step_missing hs hg hf, step_missing hs' hg' (h.fetchInstr_eq.trans hf),
        h.sameOutcome_takeFault _⟩
    | instr i n =>
      rw [step_instr hs hg hf, step_instr hs' hg' (h.fetchInstr_eq.trans hf)]
      exact h.sameResult_exec i

/-- A run that ends, ends after as many steps and with the same outcome from any state that agrees. -/
theorem sameOutcome_runFor {fuel : Nat} {t : State} (h : SameInputs s s') (hs : s.ready)
    (hrun : runFor fuel s = .ended t) :
    ∃ t', runFor fuel s' = .ended t' ∧ SameOutcome t t' := by
  induction fuel generalizing s s' with
  | zero => cases hrun
  | succ fuel ih =>
    obtain ⟨u, u', hu, hu', huu⟩ := h.sameResult_step hs
    rw [runFor_succ hu] at hrun
    rw [runFor_succ hu', huu.report]
    by_cases hr : u.report = .running
    · rw [if_pos hr] at hrun ⊢
      have hready : u.ready := ready_of_step_running hu hr
      exact ih (huu.sameInputs hready) hready hrun
    · rw [if_neg hr] at hrun ⊢
      cases hrun
      exact ⟨u', rfl, huu⟩

end SameInputs

/-- Settles O14: a step reads only what `SameInputs` compares, and so does each step of a run. -/
theorem outcomeIsAFunctionOfPcRegistersProgram : Obligations.OutcomeIsAFunctionOfPcRegistersProgram := by
  intro s s' hs hs' hpc hregs hprog
  have h : SameInputs s s' := ⟨hpc, hregs, hprog, hs'.trans hs.symm⟩
  constructor
  · obtain ⟨t, t', ht, ht', ho⟩ := h.sameResult_step hs
    exact ⟨t, t', ht, ht', ho.report, ho.regs, ho.prog, ho.faultLatch, ho.pc⟩
  · intro fuel t hrun
    obtain ⟨t', ht', ho⟩ := h.sameOutcome_runFor hs hrun
    exact ⟨t', ht', ho.report, ho.regs, ho.prog, ho.faultLatch, ho.pc⟩

end Sys2Proof.Machine
end

section
/-! SUPPORT. The registers an instruction reads and writes (rule R23). -/

namespace Sys2Proof.Machine

/-! ### The register an instruction changes -/

/-- A first register operand is the register R23's table lists as written. -/
theorem writtenField_of_head? {i : Instr} {f : Byte} (h : i.regFields.head? = some f) :
    writtenField i = some f := by
  cases i <;> exact h

/-- A register that an instruction changes is the one its first operand names. -/
theorem exec_head?_of_getReg_ne {i : Instr} {s t : State} {r : Fin 32} (h : exec i s = .next t)
    (hne : t.getReg r ≠ s.getReg r) : ∃ f, i.regFields.head? = some f ∧ f.toNat = r.val := by
  obtain ⟨g, -, e⟩ | ⟨-, ⟨d, v, hd, e⟩ | ⟨-, e⟩⟩ := exec_cases i s <;> rw [e] at h <;> cases h
  · exact absurd (getReg_takeFault _ s r) hne
  · have hr : r = d := by
      by_contra hrd
      rw [getReg_endStep] at hne
      exact hne (getReg_setReg_ne s v hrd)
    rwa [hr]
  · exact absurd (getReg_endStep s _ _ r) hne

/-! ### The value an instruction writes -/

section
variable {f : Word → Word → Word} {s s' t t' : State}

/-- Format FRI writes one value from both states where `f` makes one value of both. -/
theorem regImmOp_getReg_congr {reg : Byte} {value : Half} (hr : reg.toNat < 32)
    (h : regImmOp f reg value s = .next t) (h' : regImmOp f reg value s' = .next t')
    (hv : f (s'.getReg ⟨reg.toNat, hr⟩) (immExt value) = f (s.getReg ⟨reg.toNat, hr⟩) (immExt value)) :
    t'.getReg ⟨reg.toNat, hr⟩ = t.getReg ⟨reg.toNat, hr⟩ := by
  rw [regImmOp_ok f hr] at h h'
  cases h
  cases h'
  simpa using hv

/-- Format FRR writes one value from both states where `f` makes one value of both. -/
theorem regRegOp_getReg_congr {dest src : Byte} (hd : dest.toNat < 32) (hs : src.toNat < 32)
    (h : regRegOp f dest src s = .next t) (h' : regRegOp f dest src s' = .next t')
    (hv : f (s'.getReg ⟨dest.toNat, hd⟩) (s'.getReg ⟨src.toNat, hs⟩) =
      f (s.getReg ⟨dest.toNat, hd⟩) (s.getReg ⟨src.toNat, hs⟩)) :
    t'.getReg ⟨dest.toNat, hd⟩ = t.getReg ⟨dest.toNat, hd⟩ := by
  rw [regRegOp_ok f hd hs] at h h'
  cases h
  cases h'
  simpa using hv

/-- Format FRR, where the two states agree on both registers. -/
theorem regRegOp_getReg_congr_both {dest src : Byte} (hd : dest.toNat < 32) (hs : src.toNat < 32)
    (hread : ∀ g ∈ [dest, src], ∀ hg : g.toNat < 32, s'.getReg ⟨g.toNat, hg⟩ = s.getReg ⟨g.toNat, hg⟩)
    (h : regRegOp f dest src s = .next t) (h' : regRegOp f dest src s' = .next t') :
    t'.getReg ⟨dest.toNat, hd⟩ = t.getReg ⟨dest.toNat, hd⟩ :=
  regRegOp_getReg_congr hd hs h h' (by rw [hread dest (by simp), hread src (by simp)])

end

/-- States that agree on the registers an instruction reads give the register it writes one value: where
the value is made of the register's old content, the table lists that register as read. -/
theorem exec_getReg_written_congr {i : Instr} {s s' t t' : State} {f : Byte} (hin : fieldsInRange i)
    (hw : writtenField i = some f) (hf : f.toNat < 32)
    (hread : ∀ g ∈ readFields i, ∀ hg : g.toNat < 32, s'.getReg ⟨g.toNat, hg⟩ = s.getReg ⟨g.toNat, hg⟩)
    (h : exec i s = .next t) (h' : exec i s' = .next t') :
    t'.getReg ⟨f.toNat, hf⟩ = t.getReg ⟨f.toNat, hf⟩ := by
  have second {dest src : Byte} (e : i.regFields = [dest, src]) : src.toNat < 32 := hin src (by simp [e])
  cases i with
  | halt => cases hw
  | jump _ => cases hw
  | invalid _ => cases hw
  | loadImmediate reg value =>
    cases hw
    rw [exec_loadImmediate] at h h'
    exact regImmOp_getReg_congr hf h h' rfl
  | addImmediate reg value =>
    cases hw
    rw [exec_addImmediate] at h h'
    exact regImmOp_getReg_congr hf h h' (by rw [hread f (by simp [readFields])])
  | subtractImmediate reg value =>
    cases hw
    rw [exec_subtractImmediate] at h h'
    exact regImmOp_getReg_congr hf h h' (by rw [hread f (by simp [readFields])])
  | move dest src =>
    cases hw
    rw [exec_move] at h h'
    exact regRegOp_getReg_congr hf (second rfl) h h' (hread src (by simp [readFields]) _)
  | bitwiseAnd dest src =>
    cases hw
    rw [exec_bitwiseAnd] at h h'
    exact regRegOp_getReg_congr_both hf (second rfl) hread h h'
  | bitwiseOr dest src =>
    cases hw
    rw [exec_bitwiseOr] at h h'
    exact regRegOp_getReg_congr_both hf (second rfl) hread h h'
  | bitwiseXor dest src =>
    cases hw
    rw [exec_bitwiseXor] at h h'
    exact regRegOp_getReg_congr_both hf (second rfl) hread h h'

/-- Settles O26: the changed register by the inversion of `exec`, the written value by the two
operand formats. -/
theorem registersReadAndWritten : Obligations.RegistersReadAndWritten := by
  constructor
  · intro i s t r h hne
    obtain ⟨f, hf, hr⟩ := exec_head?_of_getReg_ne h hne
    exact ⟨f, writtenField_of_head? hf, hf, hr⟩
  · intro i s s' t t' f r hin hw hr hread h h'
    have hf : f.toNat < 32 := hr ▸ r.isLt
    obtain rfl : (⟨f.toNat, hf⟩ : Fin 32) = r := Fin.ext hr
    exact exec_getReg_written_congr hin hw hf (fun g hg hlt => hread ⟨g.toNat, hlt⟩ ⟨g, hg, rfl⟩) h h'

end Sys2Proof.Machine
end

section
/-! SUPPORT. What carries over without RESET (rule R37): the effect of a load, and of a step that halts. -/

namespace Sys2Proof.Machine

/-- LOAD_PROGRAM replaces the program, or is refused and changes nothing (rules R180, R203). -/
theorem command_loadProgram_cases (progMax fuel : Nat) (bytes : List Byte) (s : State) :
    command progMax fuel (.loadProgram bytes) s = (loadProgram bytes s, .done) ∨
      command progMax fuel (.loadProgram bytes) s = (s, .refused) :=
  ite_eq_or_eq _ _ _

/-- The clean end of a step touches only the PC and the report. -/
theorem keepsRest_endStep (s : State) (p : Nat) (r : Report) : KeepsRest s (s.endStep p r) :=
  ⟨⟨rfl, fun _ => rfl⟩, rfl, rfl⟩

/-- Only HALT and INVALID report halted (rule R104). -/
theorem reportOf_eq_halted_iff (i : Instr) : reportOf i = .halted ↔ i = .halt ∨ ∃ b, i = .invalid b := by
  cases i <;> simp [reportOf]

/-- An instruction that reports halted moves the PC one byte on and does nothing else. -/
theorem exec_halted {i : Instr} {s t : State} (h : exec i s = .next t) (ht : t.report = .halted) :
    t = s.endStep (s.pc + 1) .halted := by
  have hi : reportOf i = .halted := by
    obtain ⟨g, -, e⟩ | ⟨-, ⟨d, v, -, e⟩ | ⟨-, e⟩⟩ := exec_cases i s <;> rw [e] at h <;> cases h
    · simp at ht
    · exact ht
    · exact ht
  obtain rfl | ⟨b, rfl⟩ := (reportOf_eq_halted_iff i).1 hi
  · rw [exec_halt] at h
    cases h
    rfl
  · rw [exec_invalid] at h
    cases h
    rfl

/-- A step that reports halted is the guard's halt, which leaves the PC, or moves the PC one byte on; it
does nothing else. -/
theorem step_halted {s t : State} (h : step s = .next t) (ht : t.report = .halted) :
    (s.prog.len < s.pc ∧ t = s.endStep s.pc .halted) ∨
      (s.pc ≤ s.prog.len ∧ t = s.endStep (s.pc + 1) .halted) := by
  obtain ⟨-, hguard | ⟨hpc, ⟨a, -, rfl⟩ | ⟨i, n, -, hx⟩⟩⟩ := step_cases h
  · exact .inl hguard
  · simp at ht
  · exact .inr ⟨hpc, exec_halted hx ht⟩

/-- Settles O36: by the two outcomes of a load, and by what a halting step does. -/
theorem loadAndHaltResetNothing : Obligations.LoadAndHaltResetNothing := by
  constructor
  · intro progMax fuel bytes s
    obtain e | e := command_loadProgram_cases progMax fuel bytes s <;> rw [e]
    · exact ⟨loadProgram_pc bytes s, loadProgram_regs bytes s⟩
    · exact ⟨rfl, rfl⟩
  · intro s t h ht
    obtain ⟨hpc, rfl⟩ | ⟨hpc, rfl⟩ := step_halted h ht
    · exact ⟨rfl, keepsRest_endStep s _ _, .inl ⟨hpc, rfl⟩⟩
    · exact ⟨rfl, keepsRest_endStep s _ _, .inr ⟨hpc, rfl⟩⟩

end Sys2Proof.Machine
end

section
/-! SUPPORT. The register check, whole (rules R78, R79, R107): an instruction faults on a register field of
32 or more, and on nothing else. -/

namespace Sys2Proof.Machine

/-- No completed instruction reports a fault (rule R104). -/
theorem reportOf_ne_faulted (i : Instr) (f : Fault) : reportOf i ≠ .faulted f := by
  cases i <;> simp [reportOf]

/-- With a register field out of range, an instruction takes the fault of such a field. -/
theorem exec_of_field_out_of_range {i : Instr} (h : ∃ f ∈ i.regFields, 32 ≤ f.toNat) (s : State) :
    ∃ g ∈ i.regFields, 32 ≤ g.toNat ∧ exec i s = .next (takeFault (.registerOutOfRange g) s) := by
  obtain ⟨g, hg, e⟩ | ⟨hnone, -⟩ := exec_cases i s
  · exact ⟨g, List.mem_of_find?_eq_some hg, by simpa using List.find?_some hg, e⟩
  · obtain ⟨f, hf, hbad⟩ := h
    exact absurd hbad (by simpa using List.find?_eq_none.1 hnone f hf)

/-- With every register field in range, an instruction completes: PC and report are those of the
instruction, and the fault latch stays as it was. -/
theorem exec_of_fieldsInRange {i : Instr} (h : fieldsInRange i) (s : State) :
    ∃ t, exec i s = .next t ∧ t.pc = nextPc i s.pc ∧ t.report = reportOf i ∧
      t.faultLatch = s.faultLatch := by
  obtain ⟨g, hg, -⟩ | ⟨-, ⟨d, v, -, e⟩ | ⟨-, e⟩⟩ := exec_cases i s
  · have hlt : g.toNat < 32 := h g (List.mem_of_find?_eq_some hg)
    have hbad : 32 ≤ g.toNat := by simpa using List.find?_some hg
    omega
  · exact ⟨_, e, rfl, rfl, rfl⟩
  · exact ⟨_, e, rfl, rfl, rfl⟩

/-- Settles O28: by what an instruction does with a register field out of range, and with none. -/
theorem everyRegisterFieldIsChecked : Obligations.EveryRegisterFieldIsChecked := by
  constructor
  · intro i s h
    obtain ⟨g, hg, hbad, e⟩ := exec_of_field_out_of_range h s
    exact ⟨_, g, e, hg, hbad, rfl, rfl, rfl⟩
  · intro i s h
    obtain ⟨t, e, -, hreport, hlatch⟩ := exec_of_fieldsInRange h s
    exact ⟨t, e, hlatch, fun f => hreport ▸ reportOf_ne_faulted i f⟩

/-- The immediate instructions have one register field and are well-formed and running for every value. -/
theorem immediate_shape {reg : Byte} {value : Half} {i : Instr}
    (h : i ∈ [Instr.loadImmediate reg value, .addImmediate reg value, .subtractImmediate reg value]) :
    i.wellFormed = true ∧ i.regFields = [reg] ∧ reportOf i = .running := by
  simp only [List.mem_cons, List.not_mem_nil, or_false] at h
  obtain rfl | rfl | rfl := h <;> exact ⟨rfl, rfl, rfl⟩

/-- Settles O25: the value is no register field, and JUMP has none, so the fields are in range. -/
theorem everyValueAndTargetIsLegal : Obligations.EveryValueAndTargetIsLegal := by
  constructor
  · intro s reg value i hs hreg hi
    obtain ⟨hwf, hfields, hrun⟩ := immediate_shape hi
    have hin : fieldsInRange i := by simpa [fieldsInRange, hfields] using hreg
    obtain ⟨t, e, -, hreport, hlatch⟩ := exec_of_fieldsInRange hin s
    exact ⟨hwf, t, e, hreport.trans hrun, hlatch.trans hs⟩
  · intro s target hs
    have hin : fieldsInRange (.jump target) := by simp [fieldsInRange, Instr.regFields]
    obtain ⟨t, e, hpc, hreport, hlatch⟩ := exec_of_fieldsInRange hin s
    exact ⟨rfl, t, e, hreport, hlatch.trans hs, hpc⟩

end Sys2Proof.Machine
end

section
/-! SUPPORT. Decoding a list of bytes by the tag of its first byte (rules R71 to R73, R106): the length the
tag asks for, and the operands of each format. -/

namespace Sys2Proof.Machine

/-! ### The length a tag asks for -/

/-- A loaded buffer reads as the bytes loaded. -/
theorem byteAt_ofBytes (bytes : List Byte) (a : Nat) : (Memory.ofBytes bytes).byteAt a = bytes[a]? := by
  rcases Nat.lt_or_ge a bytes.length with h | h
  · rw [byteAt_of_lt (by simpa using h)]
    simpa [Memory.ofBytes, h] using lookupCell_cellsFrom 0 a bytes
  · rw [byteAt_of_le (by simpa using h), List.getElem?_eq_none h]

/-- The first instruction of a program just loaded is what its bytes decode to. -/
theorem fetchInstr_loadProgram_reset (bytes : List Byte) :
    (loadProgram bytes State.reset).fetchInstr = decode bytes :=
  congrArg (decodeFrom · 0) (funext (byteAt_ofBytes bytes))

/-- Bytes as many as the first one's tag asks for decode to an instruction of that tag and length. -/
theorem decode_of_length_le {b : Byte} {rest : List Byte}
    (h : (decodeOpcode b).length ≤ (b :: rest).length) :
    ∃ i, decode (b :: rest) = .instr i (decodeOpcode b).length ∧ i.opcode = decodeOpcode b := by
  have hb : (Memory.ofBytes (b :: rest)).byteAt 0 = some b := byteAt_ofBytes _ 0
  obtain ⟨i, e, hop⟩ := (decodeFrom_byteAt _ 0 hb).1 (by simpa using h)
  refine ⟨i, ?_, hop⟩
  rw [← fetchInstr_loadProgram_reset, ← hop]
  exact e.trans (by rw [Nat.zero_add, Instr.length])

/-- Fewer bytes than the first one's tag asks for fail at the first one missing. -/
theorem decode_of_length_lt {b : Byte} {rest : List Byte}
    (h : (b :: rest).length < (decodeOpcode b).length) :
    decode (b :: rest) = .missing (b :: rest).length := by
  have hb : (Memory.ofBytes (b :: rest)).byteAt 0 = some b := byteAt_ofBytes _ 0
  obtain ⟨n, e⟩ := (decodeFrom_byteAt _ 0 hb).2 (by simpa using h)
  have hfetch : (loadProgram (b :: rest) State.reset).fetchInstr = .missing n := e
  have hn : n = (b :: rest).length := fetchInstr_missing (Nat.zero_le _) hfetch
  rw [← fetchInstr_loadProgram_reset, hfetch, hn]

/-- Settles O3: list decoding is the fetch from a program just loaded, whose reach decides. -/
theorem opcodeByteDecidesLength : Obligations.OpcodeByteDecidesLength := by
  refine ⟨by decide, fun b rest => ?_⟩
  split
  · next h => exact decode_of_length_le h
  · next h => exact decode_of_length_lt (Nat.lt_of_not_le h)

/-! ### The operands of each format -/

/-- The tags of format FRR, each with the instruction its operands make (rule R71). -/
def regRegForms : List (Opcode × (Byte → Byte → Instr)) :=
  [(.move, .move), (.bitwiseAnd, .bitwiseAnd), (.bitwiseOr, .bitwiseOr), (.bitwiseXor, .bitwiseXor)]

/-- The tags of format FRI, each with the instruction its operands make (rule R71). -/
def regImmForms : List (Opcode × (Byte → Half → Instr)) :=
  [(.loadImmediate, .loadImmediate), (.addImmediate, .addImmediate),
    (.subtractImmediate, .subtractImmediate)]

section
variable {b : Byte} {mkReg : Byte → Byte → Instr} {mkImm : Byte → Half → Instr}

/-- A tag of format FRR has length 3 and asks for two register fields. -/
theorem decode_of_mem_regRegForms (h : (decodeOpcode b, mkReg) ∈ regRegForms) :
    (decodeOpcode b).length = 3 ∧
    ∀ rest, decode (b :: rest) = fetchRegReg (fun a => (b :: rest)[a]?) 1 mkReg := by
  simp only [regRegForms, List.mem_cons, List.not_mem_nil, or_false, Prod.mk.injEq] at h
  obtain ⟨hop, rfl⟩ | ⟨hop, rfl⟩ | ⟨hop, rfl⟩ | ⟨hop, rfl⟩ := h <;>
    exact ⟨by simp [hop, Opcode.length], fun rest => by simp only [decode_cons, hop]⟩

/-- A tag of format FRI has length 4 and asks for a register field and an immediate. -/
theorem decode_of_mem_regImmForms (h : (decodeOpcode b, mkImm) ∈ regImmForms) :
    (decodeOpcode b).length = 4 ∧
    ∀ rest, decode (b :: rest) = fetchRegImm (fun a => (b :: rest)[a]?) 1 mkImm := by
  simp only [regImmForms, List.mem_cons, List.not_mem_nil, or_false, Prod.mk.injEq] at h
  obtain ⟨hop, rfl⟩ | ⟨hop, rfl⟩ | ⟨hop, rfl⟩ := h <;>
    exact ⟨by simp [hop, Opcode.length], fun rest => by simp only [decode_cons, hop]⟩

end

/-- Settles O2: whole instructions by the operands of their format, cut-short ones by their length. -/
theorem operandsAreReadAsLaidOut : Obligations.OperandsAreReadAsLaidOut := by
  intro b x y z rest
  refine ⟨fun hop => ?_, fun hop => ?_, fun hop => ⟨?_, ?_⟩, ?_, ?_⟩
  · rw [decode_cons, hop]
  · rw [decode_cons, hop]
  · rw [decode_cons, hop]
    rfl
  · exact decode_of_length_lt (by simp [hop, Opcode.length])
  · rintro _ mk hmem rfl
    obtain ⟨hlen, hdecode⟩ := decode_of_mem_regRegForms hmem
    exact ⟨hdecode _, decode_of_length_lt (by simp [hlen]), decode_of_length_lt (by simp [hlen])⟩
  · rintro _ mk hmem rfl
    obtain ⟨hlen, hdecode⟩ := decode_of_mem_regImmForms hmem
    exact ⟨⟨half y z, hdecode _, half_toNat y z⟩, decode_of_length_lt (by simp [hlen]),
      decode_of_length_lt (by simp [hlen]), decode_of_length_lt (by simp [hlen])⟩

end Sys2Proof.Machine
end

section
/-! SUPPORT. What a step reports (rules R100, R104): the instruction's own report, or the fault it takes. -/

namespace Sys2Proof.Machine

/-! ### The report of an instruction -/

/-- A completed instruction reports halted exactly for the two halting tags (rule R104). -/
theorem reportOf_eq_halted_iff_opcode (i : Instr) :
    reportOf i = .halted ↔ i.opcode = .halt ∨ i.opcode = .invalid := by
  cases i <;> simp [reportOf, Instr.opcode]

/-- A completed instruction reports running exactly for the eight other tags (rule R104). -/
theorem reportOf_eq_running_iff_opcode (i : Instr) :
    reportOf i = .running ↔
      i.opcode ∈ [Opcode.loadImmediate, .move, .addImmediate, .subtractImmediate, .bitwiseAnd,
        .bitwiseOr, .bitwiseXor, .jump] := by
  cases i <;> simp [reportOf, Instr.opcode]

/-- A completed instruction reports halted or running. -/
theorem reportOf_eq_halted_or_running (i : Instr) : reportOf i = .halted ∨ reportOf i = .running := by
  cases i <;> simp [reportOf]

/-- HALT and INVALID have no register field. -/
theorem reportOf_of_mem_regFields {i : Instr} {f : Byte} (h : f ∈ i.regFields) : reportOf i = .running := by
  cases i with
  | halt => cases h
  | invalid _ => cases h
  | _ => rfl

/-- From a ready state an instruction completes with its own report, or takes a fault, which HALT and
INVALID never do. -/
theorem exec_report_cases {i : Instr} {s t : State} (hs : s.ready) (h : exec i s = .next t) :
    (t.ready ∧ t.report = reportOf i) ∨ ((∃ f, t = takeFault f s) ∧ reportOf i = .running) := by
  obtain ⟨f, hf, e⟩ | ⟨-, ⟨d, v, -, e⟩ | ⟨-, e⟩⟩ := exec_cases i s <;> rw [e] at h <;> cases h
  · exact .inr ⟨⟨_, rfl⟩, reportOf_of_mem_regFields (List.mem_of_find?_eq_some hf)⟩
  · exact .inl ⟨hs, rfl⟩
  · exact .inl ⟨hs, rfl⟩

/-- An executed instruction reports halted exactly where a completed one does. -/
theorem exec_report_halted_iff {i : Instr} {s t : State} (hs : s.ready) (h : exec i s = .next t) :
    t.report = .halted ↔ reportOf i = .halted := by
  obtain ⟨-, hr⟩ | ⟨⟨f, rfl⟩, hi⟩ := exec_report_cases hs h
  · rw [hr]
  · simp [hi]

/-- An executed instruction reports running exactly where a completed one does and no fault is taken. -/
theorem exec_report_running_iff {i : Instr} {s t : State} (hs : s.ready) (h : exec i s = .next t) :
    t.report = .running ↔ t.ready ∧ reportOf i = .running := by
  obtain ⟨ht, hr⟩ | ⟨⟨f, rfl⟩, -⟩ := exec_report_cases hs h
  · rw [hr, and_iff_right ht]
  · simp [State.ready]

/-! ### The report of a step -/

/-- A step reports halted or running with no fault latched, or takes a fault (rule R100). -/
theorem step_report_cases {s t : State} (h : step s = .next t) :
    (t.ready ∧ (t.report = .halted ∨ t.report = .running)) ∨ ∃ f, t = takeFault f s := by
  obtain ⟨hs, ⟨-, rfl⟩ | ⟨-, ⟨a, -, rfl⟩ | ⟨i, n, -, hx⟩⟩⟩ := step_cases h
  · exact .inl ⟨hs, .inl rfl⟩
  · exact .inr ⟨_, rfl⟩
  · obtain ⟨ht, hr⟩ | ⟨hf, -⟩ := exec_report_cases hs hx
    · exact .inl ⟨ht, hr ▸ reportOf_eq_halted_or_running i⟩
    · exact .inr hf

/-- Settles O11: the guard reports halted, a failed fetch its fault, and an instruction as its tag says. -/
theorem reportIsHaltedInExactlyThreeCases : Obligations.ReportIsHaltedInExactlyThreeCases := by
  intro s t h
  obtain ⟨hs, ⟨hpc, rfl⟩ | ⟨hpc, ⟨a, hf, rfl⟩ | ⟨i, n, hf, hx⟩⟩⟩ := step_cases h
  · simp [hpc, Nat.not_le_of_lt hpc]
  · simp [hf, Nat.not_lt_of_le hpc]
  · rw [exec_report_halted_iff hs hx, exec_report_running_iff hs hx, reportOf_eq_halted_iff_opcode,
      reportOf_eq_running_iff_opcode]
    simp [hf, hpc, Nat.not_lt_of_le hpc]

end Sys2Proof.Machine
end

section
/-! SUPPORT. The frame of a step (rule R112): what it writes, and which bytes of the program it depends on. -/

namespace Sys2Proof.Machine

/-! ### What a step writes -/

/-- An instruction leaves the program alone and writes at most one register (rules R23, R51). -/
theorem exec_frame {i : Instr} {s t : State} (h : exec i s = .next t) :
    t.prog = s.prog ∧ ∃ d, KeepsOtherRegs d s t := by
  obtain ⟨f, -, e⟩ | ⟨-, ⟨d, v, -, e⟩ | ⟨-, e⟩⟩ := exec_cases i s <;> rw [e] at h <;> cases h
  · exact ⟨rfl, 0, fun r _ => getReg_takeFault _ s r⟩
  · exact ⟨rfl, d, fun r hr => getReg_setReg_ne s v hr⟩
  · exact ⟨rfl, 0, fun r _ => getReg_endStep s _ _ r⟩

/-- A step leaves the program alone and writes at most one register. -/
theorem step_frame {s t : State} (h : step s = .next t) : t.prog = s.prog ∧ ∃ d, KeepsOtherRegs d s t := by
  obtain ⟨-, ⟨-, rfl⟩ | ⟨-, ⟨a, -, rfl⟩ | ⟨i, n, -, hx⟩⟩⟩ := step_cases h
  · exact ⟨rfl, 0, fun r _ => getReg_endStep s _ _ r⟩
  · exact ⟨rfl, 0, fun r _ => getReg_takeFault _ s r⟩
  · exact exec_frame hx

/-! ### The bytes a fetch depends on -/

/-- Where `d`, fetched through `get` from offset `a` on, is an instruction, `d'` is the same one, if
`get'` agrees with `get` from `a` up to the byte after the instruction. -/
def SameFetch (get get' : Nat → Option Byte) (a : Nat) (d d' : Decoded) : Prop :=
  ∀ i n, d = .instr i n → (∀ x, a ≤ x → x < n → get' x = get x) → d' = .instr i n ∧ a ≤ n

namespace SameFetch

variable {get get' : Nat → Option Byte} {a : Nat}

/-- The fetch is over: no further byte is read. -/
theorem done (i : Instr) : SameFetch get get' a (.instr i a) (.instr i a) := by
  intro j n h _
  cases h
  exact ⟨rfl, Nat.le_refl a⟩

/-- One byte is read, and the rest of the fetch starts one offset further. -/
theorem fetch8 {k k' : Byte → Nat → Decoded}
    (hk : ∀ b, SameFetch get get' (a + 1) (k b (a + 1)) (k' b (a + 1))) :
    SameFetch get get' a (fetch8 get a k) (fetch8 get' a k') := by
  intro i n h hget
  obtain ⟨b, hb, h⟩ := fetch8_instr h
  obtain ⟨h', hn⟩ := hk b i n h fun x hx => hget x (by omega)
  have hb' : get' a = some b := (hget a (Nat.le_refl a) hn).trans hb
  exact ⟨by rw [fetch8_some hb', h'], by omega⟩

theorem fetchRegReg (mk : Byte → Byte → Instr) :
    SameFetch get get' a (fetchRegReg get a mk) (fetchRegReg get' a mk) :=
  .fetch8 fun dest => .fetch8 fun src => .done (mk dest src)

theorem fetchRegImm (mk : Byte → Half → Instr) :
    SameFetch get get' a (fetchRegImm get a mk) (fetchRegImm get' a mk) :=
  .fetch8 fun reg => .fetch8 fun hi => .fetch8 fun lo => .done (mk reg (half hi lo))

theorem decodeFrom : SameFetch get get' a (decodeFrom get a) (decodeFrom get' a) := by
  refine .fetch8 fun b => ?_
  cases decodeOpcode b with
  | halt => exact .done .halt
  | invalid => exact .done (.invalid b)
  | jump => exact .fetch8 fun target => .done (.jump target)
  | loadImmediate => exact .fetchRegImm .loadImmediate
  | addImmediate => exact .fetchRegImm .addImmediate
  | subtractImmediate => exact .fetchRegImm .subtractImmediate
  | move => exact .fetchRegReg .move
  | bitwiseAnd => exact .fetchRegReg .bitwiseAnd
  | bitwiseOr => exact .fetchRegReg .bitwiseOr
  | bitwiseXor => exact .fetchRegReg .bitwiseXor

end SameFetch

/-! ### A step over an instruction, with another program around it -/

section
variable {f : Word → Word → Word} {s t : State}

theorem regImmOp_withProg (p : Memory) {reg : Byte} {value : Half} (h : regImmOp f reg value s = .next t) :
    regImmOp f reg value { s with prog := p } = .next { t with prog := p } := by
  by_cases hr : reg.toNat < 32
  · rw [regImmOp_ok f hr] at h ⊢
    cases h
    rfl
  · rw [regImmOp_bad f (Nat.le_of_not_lt hr)] at h ⊢
    cases h
    rfl

theorem regRegOp_withProg (p : Memory) {dest src : Byte} (h : regRegOp f dest src s = .next t) :
    regRegOp f dest src { s with prog := p } = .next { t with prog := p } := by
  by_cases hd : dest.toNat < 32
  · by_cases hs : src.toNat < 32
    · rw [regRegOp_ok f hd hs] at h ⊢
      cases h
      rfl
    · rw [regRegOp_badSrc f hd (Nat.le_of_not_lt hs)] at h ⊢
      cases h
      rfl
  · rw [regRegOp_badDest f src (Nat.le_of_not_lt hd)] at h ⊢
    cases h
    rfl

/-- An instruction, once fetched, reads nothing of the program and writes nothing to it. -/
theorem exec_withProg (p : Memory) {i : Instr} (h : exec i s = .next t) :
    exec i { s with prog := p } = .next { t with prog := p } := by
  cases i with
  | halt => cases h; rfl
  | invalid _ => cases h; rfl
  | jump _ => cases h; rfl
  | loadImmediate _ _ => exact regImmOp_withProg (f := fun _ m => m) p h
  | addImmediate _ _ => exact regImmOp_withProg p h
  | subtractImmediate _ _ => exact regImmOp_withProg p h
  | move _ _ => exact regRegOp_withProg (f := fun _ b => b) p h
  | bitwiseAnd _ _ => exact regRegOp_withProg p h
  | bitwiseOr _ _ => exact regRegOp_withProg p h
  | bitwiseXor _ _ => exact regRegOp_withProg p h

/-- A step over an instruction depends on no byte of the program but the instruction's own. -/
theorem step_withProg {i : Instr} {n : Nat} {p : Memory} (hf : s.fetchInstr = .instr i n)
    (hlen : p.len = s.prog.len) (hp : ∀ a, s.pc ≤ a → a < n → p.byteAt a = s.prog.byteAt a)
    (h : step s = .next t) : step { s with prog := p } = .next { t with prog := p } := by
  have hpc : s.pc ≤ s.prog.len := Nat.le_of_lt (fetchInstr_lt hf)
  have hpc' : s.pc ≤ p.len := hlen ▸ hpc
  have hf' : ({ s with prog := p } : State).fetchInstr = .instr i n := (SameFetch.decodeFrom i n hf hp).1
  have hs : s.ready := (step_cases h).1
  rw [step_instr hs hpc hf] at h
  exact (step_instr (s := { s with prog := p }) hs hpc' hf').trans (exec_withProg p h)

end

/-- Settles O13: by the frame of a step, by the latch, by what a fetch depends on, and by JUMP's meaning. -/
theorem stepNeverOversteps : Obligations.StepNeverOversteps := by
  refine ⟨fun s t h => ?_, fun s t f hl h => ?_, fun s i n p hf hlen hp t h => step_withProg hf hlen hp h,
    fun s target n hs hpc hf => ?_⟩
  · obtain ⟨hprog, hregs⟩ := step_frame h
    exact ⟨⟨hprog, fun a => by rw [hprog]⟩, by rw [hprog], hregs⟩
  · rw [step_latched hl] at h
    cases h
  · exact ⟨_, (step_instr hs hpc hf).trans (exec_jump target s), rfl, rfl, hs⟩

end Sys2Proof.Machine
end

section
/-! SUPPORT. RUN as repeated steps (rules R108, R109, R111): a run out of fuel stands after that many
running steps, and a run that ends does so one step after some running ones. -/

namespace Sys2Proof.Machine

variable {s t u : State}

/-- With no fault latched a step answers a next state (rule R100). -/
theorem step_next_of_ready (hs : s.ready) : ∃ t, step s = .next t :=
  have hself : SameInputs s s := ⟨rfl, rfl, rfl, rfl⟩
  let ⟨t, _, ht, _, _⟩ := hself.sameResult_step hs
  ⟨t, ht⟩

/-! ### Running steps -/

theorem runsOn_zero_iff : RunsOn 0 s u ↔ u = s := by
  constructor
  · rintro ⟨h, -⟩
    cases h
    rfl
  · rintro rfl
    exact ⟨rfl, fun j v hj hj0 => by omega⟩

/-- `k + 1` running steps are one and `k` more. -/
theorem runsOn_succ_iff {k : Nat} :
    RunsOn (k + 1) s u ↔ ∃ w, step s = .next w ∧ w.report = .running ∧ RunsOn k w u := by
  constructor
  · rintro ⟨hrun, hall⟩
    cases hl : s.faultLatch with
    | some f =>
      rw [coreRun_latched hl] at hrun
      cases hrun
    | none =>
      obtain ⟨w, hw⟩ := step_next_of_ready hl
      refine ⟨w, hw, hall 1 w (by omega) (by omega) (coreRun_next hw 0), coreRun_next hw k ▸ hrun, ?_⟩
      intro j v hj hjk hv
      exact hall (j + 1) v (by omega) (by omega) ((coreRun_next hw j).trans hv)
  · rintro ⟨w, hw, hr, hrun, hall⟩
    refine ⟨(coreRun_next hw k).trans hrun, fun j v hj hjk hv => ?_⟩
    obtain ⟨j, rfl⟩ : ∃ i, j = i + 1 := ⟨j - 1, by omega⟩
    rw [coreRun_next hw] at hv
    cases j with
    | zero =>
      cases hv
      exact hr
    | succ j => exact hall (j + 1) v (by omega) (by omega) hv

/-! ### A run under fuel -/

/-- A run out of fuel stands where as many running steps lead. -/
theorem runFor_eq_unfinished_iff (hs : s.ready) (fuel : Nat) :
    runFor fuel s = .unfinished t ↔ RunsOn fuel s t := by
  induction fuel generalizing s with
  | zero => simp [runFor, runsOn_zero_iff, eq_comm]
  | succ fuel ih =>
    obtain ⟨w, hw⟩ := step_next_of_ready hs
    by_cases hr : w.report = .running
    · simp [runFor_succ hw, runsOn_succ_iff, hw, hr, ih (ready_of_step_running hw hr)]
    · simp [runFor_succ hw, runsOn_succ_iff, hw, hr]

/-- A run ends with the first step that does not report running. -/
theorem runFor_eq_ended_iff (hs : s.ready) (fuel : Nat) :
    runFor fuel s = .ended t ↔
      ∃ k u, k < fuel ∧ RunsOn k s u ∧ step u = .next t ∧ t.report ≠ .running := by
  induction fuel generalizing s with
  | zero => simp [runFor]
  | succ fuel ih =>
    obtain ⟨w, hw⟩ := step_next_of_ready hs
    rw [runFor_succ hw]
    constructor
    · intro h
      by_cases hr : w.report = .running
      · rw [if_pos hr] at h
        obtain ⟨k, u, hk, hu, hstep⟩ := (ih (ready_of_step_running hw hr)).1 h
        exact ⟨k + 1, u, by omega, runsOn_succ_iff.2 ⟨w, hw, hr, hu⟩, hstep⟩
      · rw [if_neg hr] at h
        cases h
        exact ⟨0, s, by omega, runsOn_zero_iff.2 rfl, hw, hr⟩
    · rintro ⟨_ | k, u, hk, hu, hstep, ht⟩
      · obtain rfl := runsOn_zero_iff.1 hu
        rw [hw] at hstep
        cases hstep
        rw [if_neg ht]
      · obtain ⟨w', hw', hr, hu⟩ := runsOn_succ_iff.1 hu
        rw [hw] at hw'
        cases hw'
        rw [if_pos hr]
        exact (ih (ready_of_step_running hw hr)).2 ⟨k, u, by omega, hu, hstep, ht⟩

/-! ### The end of a run -/

/-- Some fuel suffices for a run to end exactly where a step after running ones does not report running. -/
theorem exists_runFor_eq_ended_iff (hs : s.ready) :
    (∃ fuel, runFor fuel s = .ended t) ↔
      ∃ k u, RunsOn k s u ∧ step u = .next t ∧ t.report ≠ .running := by
  constructor
  · rintro ⟨fuel, h⟩
    obtain ⟨k, u, -, hu⟩ := (runFor_eq_ended_iff hs fuel).1 h
    exact ⟨k, u, hu⟩
  · rintro ⟨k, u, hu⟩
    exact ⟨k + 1, (runFor_eq_ended_iff hs (k + 1)).2 ⟨k, u, Nat.lt_succ_self k, hu⟩⟩

theorem endsCleanly_iff (hs : s.ready) :
    EndsCleanly s t ↔ ∃ k u, RunsOn k s u ∧ step u = .next t ∧ t.report = .halted := by
  rw [EndsCleanly, exists_and_right, exists_runFor_eq_ended_iff hs]
  constructor
  · rintro ⟨⟨k, u, hu, hstep, -⟩, ht⟩
    exact ⟨k, u, hu, hstep, ht⟩
  · rintro ⟨k, u, hu, hstep, ht⟩
    exact ⟨⟨k, u, hu, hstep, by simp [ht]⟩, ht⟩

/-- The registers at a fault are those before the step that faults (rule R178). -/
theorem endsInFault_iff (hs : s.ready) (f : Fault) :
    EndsInFault s t f ↔ ∃ k u, RunsOn k s u ∧ step u = .next t ∧ t.report = .faulted f ∧
      t.faultLatch = some f ∧ t.regs = u.regs := by
  rw [EndsInFault, exists_and_right, exists_runFor_eq_ended_iff hs]
  constructor
  · rintro ⟨⟨k, u, hu, hstep, -⟩, ht, hl⟩
    obtain hready | ⟨g, rfl⟩ := step_ready_or_takeFault hstep
    · simp [hready] at hl
    · exact ⟨k, u, hu, hstep, ht, hl, takeFault_regs g u⟩
  · rintro ⟨k, u, hu, hstep, ht, hl, -⟩
    exact ⟨⟨k, u, hu, hstep, by simp [ht]⟩, ht, hl⟩

theorem neverEnds_iff (hs : s.ready) : NeverEnds s ↔ ∀ k, ∃ u, RunsOn k s u :=
  forall_congr' fun k => exists_congr fun _ => runFor_eq_unfinished_iff hs k

/-- A run that ends does so cleanly or in a fault. -/
theorem endsCleanly_or_endsInFault {fuel : Nat} (hs : s.ready) (h : runFor fuel s = .ended t) :
    EndsCleanly s t ∨ ∃ f, EndsInFault s t f := by
  obtain ⟨k, u, -, -, hstep, hr⟩ := (runFor_eq_ended_iff hs fuel).1 h
  obtain ⟨-, ht | ht⟩ | ⟨f, rfl⟩ := step_report_cases hstep
  · exact .inl ⟨fuel, h, ht⟩
  · exact absurd ht hr
  · exact .inr ⟨f, fuel, h, rfl, rfl⟩

/-- A run ends, or runs on for any fuel. -/
theorem neverEnds_or_ended (s : State) : NeverEnds s ∨ ∃ fuel t, runFor fuel s = .ended t := by
  rw [or_iff_not_imp_right]
  intro h fuel
  cases hrun : runFor fuel s with
  | ended t => exact absurd ⟨fuel, t, hrun⟩ h
  | unfinished t => exact ⟨t, rfl⟩

/-- Settles O42: each end of a run by the step that ends it, and no fourth by that step's report. -/
theorem endOfARun : Obligations.EndOfARun := by
  intro s hs
  refine ⟨fun t => endsCleanly_iff hs, fun t f => endsInFault_iff hs f, neverEnds_iff hs, ?_⟩
  obtain h | ⟨fuel, t, h⟩ := neverEnds_or_ended s
  · exact .inr (.inr h)
  · obtain hclean | ⟨f, hfault⟩ := endsCleanly_or_endsInFault hs h
    · exact .inl ⟨t, hclean⟩
    · exact .inr (.inl ⟨t, f, hfault⟩)

end Sys2Proof.Machine
end

section
/-! SUPPORT. Arithmetic with an immediate (rules R140 to R142): what an instruction of format FRI leaves, and
the signed reading of a wrapped sum or difference. -/

namespace Sys2Proof.Machine

/-- Format FRI with its field in range, as a reader of the state sees it: the register holds what `f` makes of
it and the widened immediate, whatever that value is, and the frame is kept. -/
theorem regImmOp_completes (f : Word → Word → Word) {reg : Byte} (h : reg.toNat < 32) (value : Half)
    (s : State) :
    ∃ t, regImmOp f reg value s = .next t ∧
      t.getReg ⟨reg.toNat, h⟩ = f (s.getReg ⟨reg.toNat, h⟩) (immExt value) ∧
      KeepsOtherRegs ⟨reg.toNat, h⟩ s t ∧ t.pc = s.pc + 4 ∧ t.report = .running ∧ KeepsRest s t := by
  refine ⟨_, regImmOp_ok f h value s, ?_, fun r hr => ?_, rfl, rfl, keepsRest_endStep (s.setReg _ _) _ _⟩
  · rw [getReg_endStep, getReg_setReg_same]
  · rw [getReg_endStep, getReg_setReg_ne s _ hr]

/-- `signed_32` of rule R10 is the library's signed reading of a bit vector. -/
theorem signed32_eq_toInt (v : Word) : signed32 v = v.toInt := by
  rw [signed32, BitVec.toInt_eq_toNat_cond]
  split <;> split <;> omega

theorem signed32_inSignedRange (v : Word) : InSignedRange (signed32 v) := by
  rw [signed32_eq_toInt]
  exact ⟨BitVec.le_toInt v, Int.le_sub_one_of_lt BitVec.toInt_lt⟩

/-- Reduction modulo `2^32` into the signed range is one wrap at most, for a number less than `2^32` away. -/
theorem wrapsTo_bmod {z : Int} (hlow : -2 ^ 32 ≤ z) (hhigh : z < 2 ^ 32) : WrapsTo z (z.bmod (2 ^ 32)) := by
  simp only [WrapsTo, InSignedRange, Int.bmod]
  omega

theorem wrapsTo_signed32_add (a m : Word) : WrapsTo (signed32 a + signed32 m) (signed32 (a + m)) := by
  obtain ⟨ha, ha'⟩ := signed32_inSignedRange a
  obtain ⟨hm, hm'⟩ := signed32_inSignedRange m
  rw [signed32_eq_toInt (a + m), BitVec.toInt_add, ← signed32_eq_toInt, ← signed32_eq_toInt]
  exact wrapsTo_bmod (by omega) (by omega)

theorem wrapsTo_signed32_sub (a m : Word) : WrapsTo (signed32 a - signed32 m) (signed32 (a - m)) := by
  obtain ⟨ha, ha'⟩ := signed32_inSignedRange a
  obtain ⟨hm, hm'⟩ := signed32_inSignedRange m
  rw [signed32_eq_toInt (a - m), BitVec.toInt_sub, ← signed32_eq_toInt, ← signed32_eq_toInt]
  exact wrapsTo_bmod (by omega) (by omega)

/-- The library's difference of bit vectors, in the form of the spec's `-_32` (rule R12). -/
theorem toNat_sub_eq_mod (a m : Word) : (a - m).toNat = (a.toNat + 2 ^ 32 - m.toNat) % 2 ^ 32 := by
  rw [BitVec.toNat_sub]
  have := m.isLt
  congr 1
  omega

/-- Settles O20: both instructions are format FRI, so the laws are those of `+` and `-` on words, and undoing
is the same format once more, from the state the first instruction left. -/
theorem arithmeticLaws : Obligations.ArithmeticLaws := by
  intro s reg value h
  simp only [exec_addImmediate, exec_subtractImmediate]
  obtain ⟨ta, hta, hadd, haddFrame⟩ := regImmOp_completes (fun a m => a + m) h value s
  obtain ⟨ts, hts, hsub, hsubFrame⟩ := regImmOp_completes (fun a m => a - m) h value s
  obtain ⟨ua, hua, haddSub, -⟩ := regImmOp_completes (fun a m => a - m) h value ta
  obtain ⟨us, hus, hsubAdd, -⟩ := regImmOp_completes (fun a m => a + m) h value ts
  refine ⟨ta, ts, hta, hts, ?_, ?_, ?_, ?_, ?_, ⟨ua, hua, ?_⟩, ⟨us, hus, ?_⟩⟩
  · rw [hadd, BitVec.toNat_add]
  · rw [hsub, toNat_sub_eq_mod]
  · rw [hadd]
    exact wrapsTo_signed32_add _ _
  · rw [hsub]
    exact wrapsTo_signed32_sub _ _
  · exact List.forall_mem_cons.2 ⟨haddFrame, List.forall_mem_singleton.2 hsubFrame⟩
  · rw [haddSub, hadd, BitVec.add_sub_cancel]
  · rw [hsubAdd, hsub, BitVec.sub_add_cancel]

end Sys2Proof.Machine
end

section
/-! SUPPORT. What halts a step and is no exception: the bounds guard (rule R175) and INVALID (rule R174). -/

namespace Sys2Proof.Machine

/-- Settles O9: the guard ends the step cleanly, at the PC the step began with. -/
theorem guardHaltsWithoutSideEffects : Obligations.GuardHaltsWithoutSideEffects := by
  intro s hs hpc
  exact ⟨_, step_guard hs hpc, endStep_report s _ _, (endStep_faultLatch s _ _).trans hs, endStep_pc s _ _,
    endStep_regs s _ _, keepsRest_endStep s _ _⟩

/-- Settles O16: INVALID and HALT end the step cleanly in the same state, in which the byte does not occur. -/
theorem invalidIsIndistinguishableFromHalt : Obligations.InvalidIsIndistinguishableFromHalt := by
  intro s byte
  have hinvalid := exec_invalid byte s
  exact ⟨hinvalid.trans (exec_halt s).symm, _, hinvalid, endStep_report s _ _, endStep_faultLatch s _ _,
    endStep_pc s _ _, endStep_regs s _ _, keepsRest_endStep s _ _⟩

end Sys2Proof.Machine
end

section
/-! SUPPORT. What RESET leaves (rule R200): each piece of the spec's state at its value after reset. -/

namespace Sys2Proof.Machine

@[simp] theorem resetCommand_prog (s : State) : (resetCommand s).prog = State.reset.prog := rfl
@[simp] theorem resetCommand_pc (s : State) : (resetCommand s).pc = State.reset.pc := rfl
@[simp] theorem resetCommand_faultLatch (s : State) :
    (resetCommand s).faultLatch = State.reset.faultLatch := rfl
@[simp] theorem getReg_resetCommand (s : State) (r : Fin 32) :
    (resetCommand s).getReg r = State.reset.getReg r := rfl

/-- A buffer of length 0 has no bytes, whatever its cells. -/
theorem toBytes_eq_nil_iff {m : Memory} : m.toBytes = [] ↔ m.len = 0 := by
  rw [← List.length_eq_zero_iff, length_toBytes]

/-- Settles O33: RESET leaves what the state after reset holds, with registers 0 and a buffer of length 0. -/
theorem resetCommandRestoresEverything : Obligations.ResetCommandRestoresEverything := by
  intro progMax fuel s
  have hlen : (resetCommand s).prog.len = 0 := by rw [resetCommand_prog, reset_prog]
  refine ⟨resetCommand s, rfl, fun r => ?_, ?_, toBytes_eq_nil_iff.2 hlen, hlen, ?_⟩
  · rw [getReg_resetCommand, getReg_reset]
  · rw [resetCommand_pc, reset_pc]
  · rw [resetCommand_faultLatch, reset_faultLatch]

end Sys2Proof.Machine
end

section
/-! SUPPORT. Decoding and encoding are inverse (rules R71 to R73, R76): an encoding decodes to its instruction,
and any bytes that reach as far as the first one's tag asks begin with an encoding. The fetch at the PC reads
what the list decoder reads from the PC on. -/

namespace Sys2Proof.Machine

/-! ### Decoding an encoding -/

theorem decode_regRegForm {tag : Opcode} {mk : Byte → Byte → Instr} (h : (tag, mk) ∈ regRegForms)
    (dest src : Byte) (rest : List Byte) :
    decode (opcodeByte tag :: dest :: src :: rest) = .instr (mk dest src) 3 :=
  (decode_of_mem_regRegForms (by rwa [decodeOpcode_opcodeByte])).2 _

theorem decode_regImmForm {tag : Opcode} {mk : Byte → Half → Instr} (h : (tag, mk) ∈ regImmForms)
    (reg : Byte) (value : Half) (rest : List Byte) :
    decode (opcodeByte tag :: reg :: halfHi value :: halfLo value :: rest) = .instr (mk reg value) 4 := by
  rw [(decode_of_mem_regImmForms (by rwa [decodeOpcode_opcodeByte])).2]
  exact congrArg (fun v => Decoded.instr (mk reg v) 4) (half_halfHi_halfLo value)

/-- Decoding an encoding, whatever follows, gives the instruction back. -/
theorem decode_encode_append {i : Instr} (h : i.wellFormed = true) (rest : List Byte) :
    decode (encode i ++ rest) = .instr i i.length := by
  cases i with
  | halt => rfl
  | jump _ => rfl
  | invalid byte =>
    have htag : decodeOpcode byte = .invalid :=
      (decodeOpcode_invalid_iff byte).2 (by simpa [Instr.wellFormed] using h)
    exact (decode_cons byte rest).trans (by rw [htag]; rfl)
  | move dest src => exact decode_regRegForm (by simp [regRegForms]) dest src rest
  | bitwiseAnd dest src => exact decode_regRegForm (by simp [regRegForms]) dest src rest
  | bitwiseOr dest src => exact decode_regRegForm (by simp [regRegForms]) dest src rest
  | bitwiseXor dest src => exact decode_regRegForm (by simp [regRegForms]) dest src rest
  | loadImmediate reg value => exact decode_regImmForm (by simp [regImmForms]) reg value rest
  | addImmediate reg value => exact decode_regImmForm (by simp [regImmForms]) reg value rest
  | subtractImmediate reg value => exact decode_regImmForm (by simp [regImmForms]) reg value rest

/-- An encoding is as long as the tag says (rule R72). -/
theorem length_encode (i : Instr) : (encode i).length = i.length := by
  cases i <;> rfl

/-- Settles O5: every format's operands are read back from the bytes they were written to. -/
theorem decodeOfEncodeIsTheInstruction : Obligations.DecodeOfEncodeIsTheInstruction := by
  intro i rest h
  rw [decode_encode_append h, length_encode]

/-! ### Encoding what was decoded -/

theorem exists_two_of_le {bytes : List Byte} (h : 2 ≤ bytes.length) : ∃ x y rest, bytes = x :: y :: rest := by
  match bytes, h with
  | x :: y :: rest, _ => exact ⟨x, y, rest, rfl⟩

/-- Three bytes are a register field and the two halves of an immediate. -/
theorem exists_reg_half_of_le {bytes : List Byte} (h : 3 ≤ bytes.length) :
    ∃ reg value rest, bytes = reg :: halfHi value :: halfLo value :: rest := by
  match bytes, h with
  | reg :: hi :: lo :: rest, _ => exact ⟨reg, half hi lo, rest, by rw [halfHi_half, halfLo_half]⟩

/-- The byte of an operation and as many bytes after it as its tag asks for begin with an encoding. -/
theorem exists_encode_of_opcodeByte {tag : Opcode} (htag : tag ≠ .invalid) {rest : List Byte}
    (h : tag.length ≤ rest.length + 1) :
    ∃ i rest', i.wellFormed = true ∧ opcodeByte tag :: rest = encode i ++ rest' := by
  have two (hlen : tag.length = 3) : ∃ x y rest', rest = x :: y :: rest' := exists_two_of_le (by omega)
  have three (hlen : tag.length = 4) : ∃ reg value rest', rest = reg :: halfHi value :: halfLo value :: rest' :=
    exists_reg_half_of_le (by omega)
  cases tag with
  | invalid => exact absurd rfl htag
  | halt => exact ⟨.halt, rest, rfl, rfl⟩
  | jump =>
    obtain ⟨target, rest', rfl⟩ := List.exists_cons_of_length_pos (Nat.le_of_succ_le_succ h)
    exact ⟨.jump target, rest', rfl, rfl⟩
  | move =>
    obtain ⟨dest, src, rest', rfl⟩ := two rfl
    exact ⟨.move dest src, rest', rfl, rfl⟩
  | bitwiseAnd =>
    obtain ⟨dest, src, rest', rfl⟩ := two rfl
    exact ⟨.bitwiseAnd dest src, rest', rfl, rfl⟩
  | bitwiseOr =>
    obtain ⟨dest, src, rest', rfl⟩ := two rfl
    exact ⟨.bitwiseOr dest src, rest', rfl, rfl⟩
  | bitwiseXor =>
    obtain ⟨dest, src, rest', rfl⟩ := two rfl
    exact ⟨.bitwiseXor dest src, rest', rfl, rfl⟩
  | loadImmediate =>
    obtain ⟨reg, value, rest', rfl⟩ := three rfl
    exact ⟨.loadImmediate reg value, rest', rfl, rfl⟩
  | addImmediate =>
    obtain ⟨reg, value, rest', rfl⟩ := three rfl
    exact ⟨.addImmediate reg value, rest', rfl, rfl⟩
  | subtractImmediate =>
    obtain ⟨reg, value, rest', rfl⟩ := three rfl
    exact ⟨.subtractImmediate reg value, rest', rfl, rfl⟩

/-- Bytes that decode begin with the encoding of a well-formed instruction. -/
theorem exists_encode_of_decode {bytes : List Byte} {i : Instr} {n : Nat} (h : decode bytes = .instr i n) :
    ∃ j rest, j.wellFormed = true ∧ bytes = encode j ++ rest := by
  cases bytes with
  | nil => cases h
  | cons b rest =>
    by_cases hop : decodeOpcode b = .invalid
    · exact ⟨.invalid b, rest, by simpa [Instr.wellFormed] using (decodeOpcode_invalid_iff b).1 hop, rfl⟩
    · have hlen : (decodeOpcode b).length ≤ rest.length + 1 := by
        by_contra hlt
        rw [decode_of_length_lt (by simpa using hlt)] at h
        cases h
      simpa only [opcodeByte_decodeOpcode b hop] using exists_encode_of_opcodeByte hop hlen

/-- Settles O6: the bytes begin with an encoding, and that encoding decodes to its own instruction. -/
theorem encodeOfDecodeIsTheBytes : Obligations.EncodeOfDecodeIsTheBytes := by
  intro bytes i n h
  obtain ⟨j, rest, hj, rfl⟩ := exists_encode_of_decode h
  rw [decode_encode_append hj] at h
  cases h
  exact ⟨hj, rfl, List.take_left' (length_encode i)⟩

/-! ### The fetch at the PC -/

theorem decode_drop_toBytes (m : Memory) (p : Nat) :
    decode (m.toBytes.drop p) = decodeFrom (fun a => m.byteAt (p + a)) 0 :=
  congrArg (decodeFrom · 0) (funext (getElem?_drop_toBytes m p))

/-- Settles O7: both read the buffer from the PC on, the one by offset and the other shifted by the PC. -/
theorem fetchReadsTheBytesAtThePc : Obligations.FetchReadsTheBytesAtThePc := by
  intro s _
  rw [decode_drop_toBytes]
  exact decodeFrom_shift s.prog.byteAt s.pc

/-- What the bytes from the PC on decode to is fetched there. -/
theorem fetchInstr_of_decode {s : State} {i : Instr} {n : Nat}
    (h : decode (s.prog.toBytes.drop s.pc) = .instr i n) : s.fetchInstr = .instr i (s.pc + n) := by
  rw [decode_drop_toBytes] at h
  rw [State.fetchInstr, decodeFrom_shift, h]

/-- Settles O8: the bytes at the PC decode to the instruction fetched there. -/
theorem stepRunsTheDecodedInstruction : Obligations.StepRunsTheDecodedInstruction := by
  intro s i n hs _ h
  have hf := fetchInstr_of_decode h
  exact step_instr hs (Nat.le_of_lt (fetchInstr_lt hf)) hf

/-! ### Fixed bytes -/

/-- Settles O1: the bytes are decoded. -/
theorem sampleWordsDecode : Obligations.SampleWordsDecode := by
  unfold Obligations.SampleWordsDecode
  decide

/-- Settles O4: the map is looked up for each byte. -/
theorem opcodeMapIsTheTable : Obligations.OpcodeMapIsTheTable := by
  unfold Obligations.OpcodeMapIsTheTable
  decide

end Sys2Proof.Machine
end

section
/-! SUPPORT. The instructions that write a register (rules R130, R131, R140, R141, R150 to R153): both operand
formats complete with the register written and the frame kept. -/

namespace Sys2Proof.Machine

/-- Format FRR with both fields in range, as a reader of the state sees it: the destination holds what `f` makes
of the two contents before the write, and the frame is kept. -/
theorem regRegOp_completes (f : Word → Word → Word) {dest src : Byte} (hd : dest.toNat < 32)
    (hs : src.toNat < 32) (s : State) :
    ∃ t, regRegOp f dest src s = .next t ∧
      t.getReg ⟨dest.toNat, hd⟩ = f (s.getReg ⟨dest.toNat, hd⟩) (s.getReg ⟨src.toNat, hs⟩) ∧
      KeepsOtherRegs ⟨dest.toNat, hd⟩ s t ∧ t.pc = s.pc + 3 ∧ t.report = .running ∧ KeepsRest s t := by
  refine ⟨_, regRegOp_ok f hd hs s, ?_, fun r hr => ?_, rfl, rfl, keepsRest_endStep (s.setReg _ _) _ _⟩
  · rw [getReg_endStep, getReg_setReg_same]
  · rw [getReg_endStep, getReg_setReg_ne s _ hr]

/-- Settles O17: format FRI, writing the widened immediate. -/
theorem loadImmediateLoadsTheValue : Obligations.LoadImmediateLoadsTheValue := by
  intro s reg value h
  obtain ⟨t, ht, hv, hframe⟩ := regImmOp_completes (fun _ m => m) h value s
  exact ⟨t, ht, by rw [hv, immExt_toNat], hframe⟩

/-- Settles O18: format FRR, writing the source's content. -/
theorem moveCopiesTheRegister : Obligations.MoveCopiesTheRegister := by
  intro s dest src hd hs
  exact regRegOp_completes (fun _ b => b) hd hs s

/-- Settles O19: format FRI, writing the sum or the difference with the widened immediate. -/
theorem addAndSubtractImmediateWrap : Obligations.AddAndSubtractImmediateWrap := by
  intro s reg value h
  obtain ⟨ta, hta, hadd, haddFrame⟩ := regImmOp_completes (fun a m => a + m) h value s
  obtain ⟨ts, hts, hsub, hsubFrame⟩ := regImmOp_completes (fun a m => a - m) h value s
  refine ⟨⟨ta, hta, ?_, haddFrame⟩, ⟨ts, hts, ?_, hsubFrame⟩⟩
  · rw [hadd, BitVec.toNat_add, immExt_toNat]
  · rw [hsub, toNat_sub_eq_mod, immExt_toNat]

/-- Settles O21: format FRR with the library's bitwise operations, read bit by bit. -/
theorem bitwiseInstructionsActBitByBit : Obligations.BitwiseInstructionsActBitByBit := by
  intro s dest src hd hs
  obtain ⟨ta, hta, hand, handFrame⟩ := regRegOp_completes (fun a b => a &&& b) hd hs s
  obtain ⟨tor, htor, hor, horFrame⟩ := regRegOp_completes (fun a b => a ||| b) hd hs s
  obtain ⟨tx, htx, hxor, hxorFrame⟩ := regRegOp_completes (fun a b => a ^^^ b) hd hs s
  refine ⟨⟨ta, hta, fun k _ => ?_, handFrame⟩, ⟨tor, htor, fun k _ => ?_, horFrame⟩,
    ⟨tx, htx, fun k _ => ?_, hxorFrame⟩⟩
  · rw [hand, BitVec.getLsbD_and]
  · rw [hor, BitVec.getLsbD_or]
  · rw [hxor, BitVec.getLsbD_xor]

/-! ### The bitwise laws -/

theorem signed32_eq_neg_one_iff {v : Word} : signed32 v = -1 ↔ v = BitVec.allOnes 32 := by
  rw [signed32_eq_toInt]
  exact BitVec.toInt_inj (y := BitVec.allOnes 32)

/-- The complement is the exclusive or with `-1`. -/
theorem signed32_xor_allOnes (v : Word) : signed32 (v ^^^ BitVec.allOnes 32) = -signed32 v - 1 := by
  have := v.isLt
  rw [BitVec.xor_allOnes, signed32, signed32, BitVec.toNat_not]
  split <;> split <;> omega

section
variable {f : Word → Word → Word} {s t : State}

/-- The value a completed instruction of format FRR leaves in its destination. -/
theorem getReg_of_regRegOp {dest src : Byte} (hd : dest.toNat < 32) (hs : src.toNat < 32)
    (h : regRegOp f dest src s = .next t) :
    t.getReg ⟨dest.toNat, hd⟩ = f (s.getReg ⟨dest.toNat, hd⟩) (s.getReg ⟨src.toNat, hs⟩) := by
  obtain ⟨t', ht', hv, -⟩ := regRegOp_completes f hd hs s
  cases ht'.symm.trans h
  exact hv

/-- Format FRR of one register with itself changes no register where `f` keeps equal operands. -/
theorem regs_of_regRegOp_self (hf : ∀ v, f v v = v) {reg : Byte} (h : reg.toNat < 32)
    (hx : regRegOp f reg reg s = .next t) : t.regs = s.regs := by
  rw [regRegOp_ok f h h, hf, setReg_getReg] at hx
  cases hx
  rfl

end

/-- Settles O22: the laws of the bitwise operations for `-1`, all bits one, and for equal operands. -/
theorem bitwiseLaws : Obligations.BitwiseLaws := by
  constructor
  · intro s t dest src hd hs hsrc
    rw [signed32_eq_neg_one_iff] at hsrc
    refine ⟨fun hx => ?_, fun hx => ?_, fun hx => ?_⟩
    · rw [getReg_of_regRegOp hd hs hx, hsrc, BitVec.and_allOnes]
    · rw [getReg_of_regRegOp hd hs hx, hsrc, BitVec.or_allOnes, signed32_eq_neg_one_iff]
    · rw [getReg_of_regRegOp hd hs hx, hsrc, signed32_xor_allOnes]
  · intro s t reg h
    refine ⟨regs_of_regRegOp_self (fun v => BitVec.and_self) h,
      regs_of_regRegOp_self (fun v => BitVec.or_self) h, fun hx => ?_⟩
    rw [getReg_of_regRegOp h h hx, BitVec.xor_self]
    rfl

end Sys2Proof.Machine
end

section
/-! SUPPORT. The frame of an instruction, and how a step moves the PC (rules R23, R27, R178): the first register
field out of range decides whether an instruction completes or faults. -/

namespace Sys2Proof.Machine

/-- The first register field, in operand order, that names no register (rules R107, R177). -/
def firstBadField (i : Instr) : Option Byte := i.regFields.find? fun f => decide (32 ≤ f.toNat)

theorem firstBadField_eq_none_iff {i : Instr} : firstBadField i = none ↔ fieldsInRange i := by
  simp [firstBadField, fieldsInRange]

/-- An instruction with a register field out of range takes the fault of the first one. -/
theorem exec_of_firstBadField_eq_some {i : Instr} {f : Byte} (h : firstBadField i = some f) (s : State) :
    exec i s = .next (takeFault (.registerOutOfRange f) s) := by
  obtain ⟨g, hg, e⟩ | ⟨hnone, -⟩ := exec_cases i s
  · cases hg.symm.trans h
    exact e
  · cases hnone.symm.trans h

/-- With no such field an instruction completes: PC and report are the instruction's own, and the program and
the fault latch are kept. -/
theorem exec_of_firstBadField_eq_none {i : Instr} (h : firstBadField i = none) (s : State) :
    ∃ t, exec i s = .next t ∧ t.pc = nextPc i s.pc ∧ t.report = reportOf i ∧ KeepsRest s t := by
  obtain ⟨g, hg, -⟩ | ⟨-, ⟨d, v, -, e⟩ | ⟨-, e⟩⟩ := exec_cases i s
  · cases hg.symm.trans h
  · exact ⟨_, e, rfl, rfl, keepsRest_endStep (s.setReg d v) _ _⟩
  · exact ⟨_, e, rfl, rfl, keepsRest_endStep s _ _⟩

/-- An instruction takes the fault of its first bad field, or completes without one. -/
theorem exec_next_cases {i : Instr} {s t : State} (h : exec i s = .next t) :
    (∃ f, firstBadField i = some f ∧ t = takeFault (.registerOutOfRange f) s) ∨
      (firstBadField i = none ∧ t.pc = nextPc i s.pc ∧ t.report = reportOf i ∧ KeepsRest s t) := by
  cases hf : firstBadField i with
  | some f =>
    rw [exec_of_firstBadField_eq_some hf] at h
    cases h
    exact .inl ⟨f, rfl, rfl⟩
  | none =>
    obtain ⟨t', e, ht'⟩ := exec_of_firstBadField_eq_none hf s
    cases e.symm.trans h
    exact .inr ⟨rfl, ht'⟩

/-- Settles O27: a completed instruction keeps all but registers, and of those changes the one its first field
names; one that faults changes none. -/
theorem instructionFrame : Obligations.InstructionFrame := by
  intro i s t h
  obtain ⟨hprog, -⟩ := exec_frame h
  refine ⟨⟨hprog, fun a => by rw [hprog]⟩, fun r hr => ?_, fun hin => ?_, fun hout => ?_⟩
  · by_contra hne
    obtain ⟨f, hf, hfr⟩ := exec_head?_of_getReg_ne h hne
    exact hr f (writtenField_of_head? hf) hfr
  · obtain ⟨f, hf, -⟩ | ⟨-, -, -, -, hlatch⟩ := exec_next_cases h
    · simp [firstBadField_eq_none_iff.2 hin] at hf
    · exact hlatch
  · obtain ⟨f, -, rfl⟩ | ⟨hf, -⟩ := exec_next_cases h
    · rfl
    · exact absurd (firstBadField_eq_none_iff.1 hf) hout

/-! ### The PC after a step -/

/-- A step that latches no fault leaves the PC where the guard found it, reporting halted, or where the fetched
instruction puts it. -/
theorem step_pc_cases {s t : State} (h : step s = .next t) (ht : t.ready) :
    (s.prog.len < s.pc ∧ t.pc = s.pc ∧ t.report = .halted) ∨
      (s.pc ≤ s.prog.len ∧ ∃ i n, s.fetchInstr = .instr i n ∧ t.pc = nextPc i s.pc) := by
  obtain ⟨-, ⟨hpc, rfl⟩ | ⟨hpc, ⟨a, -, rfl⟩ | ⟨i, n, hf, hx⟩⟩⟩ := step_cases h
  · exact .inl ⟨hpc, rfl, rfl⟩
  · simp [State.ready] at ht
  · obtain ⟨f, -, rfl⟩ | ⟨-, hnext, -⟩ := exec_next_cases hx
    · simp [State.ready] at ht
    · exact .inr ⟨hpc, i, n, hf, hnext⟩

/-- Settles O12: the table of rule R27 is `nextPc`, row by row. -/
theorem pcAdvanceTable : Obligations.PcAdvanceTable := by
  intro s t h ht
  obtain ⟨hpc, hkeep, -⟩ | ⟨hpc, i, n, hf, hnext⟩ := step_pc_cases h ht
  · exact .inl ⟨hpc, hkeep⟩
  · refine .inr ⟨hpc, i, n, hf, hnext.trans ?_⟩
    cases i <;> rfl

/-- An instruction fetched inside the program puts the PC at most at its end, or at a target (rule R28). -/
theorem nextPc_le {s : State} {i : Instr} {n : Nat} (h : s.fetchInstr = .instr i n) :
    nextPc i s.pc ≤ max s.prog.len 255 := by
  obtain ⟨rfl, hle⟩ := fetchInstr_next h
  cases i with
  | jump target =>
    have := target.isLt
    simp only [nextPc]
    omega
  | _ => exact le_max_of_le_left hle

/-- A step that latches no fault leaves the PC alone, reporting halted, or within rule R28's bound. -/
theorem step_pc_le {s t : State} (h : step s = .next t) (ht : t.ready) :
    (t.pc = s.pc ∧ t.report = .halted) ∨ t.pc ≤ max s.prog.len 255 := by
  obtain ⟨-, hkeep⟩ | ⟨-, i, n, hf, hnext⟩ := step_pc_cases h ht
  · exact .inl hkeep
  · exact .inr (hnext ▸ nextPc_le hf)

end Sys2Proof.Machine
end

section
/-! SUPPORT. Faults (rules R173, R177 to R180): which one a step reports, when a fetch fails, and that a fault is
precise and final. -/

namespace Sys2Proof.Machine

/-! ### When a step answers -/

/-- Settles O32: a ready core steps, and a stopped one answers the fault that stopped it. -/
theorem stepAnswersExactlyWhenReady : Obligations.StepAnswersExactlyWhenReady := by
  refine ⟨fun s => ⟨step_next_of_ready, fun ⟨t, ht⟩ => (step_cases ht).1⟩,
    fun s f => ⟨step_latched, fun h => ?_⟩⟩
  cases hl : s.faultLatch with
  | none =>
    obtain ⟨t, ht⟩ := step_next_of_ready hl
    cases ht.symm.trans h
  | some g =>
    cases (step_latched hl).symm.trans h
    rfl

/-- Settles O31: a step that does not end ready takes a fault at the state it began in. -/
theorem faultIsPreciseAndFinal : Obligations.FaultIsPreciseAndFinal := by
  intro s t f h hl
  obtain ht | ⟨g, rfl⟩ := step_ready_or_takeFault h
  · cases ht.symm.trans hl
  · cases hl
    exact ⟨(step_cases h).1, takeFault_regs f s, ⟨takeFault_prog f s, fun _ => rfl⟩, takeFault_report f s,
      step_latched (takeFault_faultLatch f s)⟩

/-! ### Which fault, and when a fetch fails -/

/-- Settles O29: a failed fetch fails at `LEN`, and a fetched instruction faults on its first bad field. -/
theorem faultPriority : Obligations.FaultPriority := by
  intro s t h hpc
  obtain ⟨hs, ⟨hguard, -⟩ | ⟨-, ⟨a, hf, rfl⟩ | ⟨i, n, hf, hx⟩⟩⟩ := step_cases h
  · omega
  · rw [hf, fetchInstr_missing hpc hf]
    rfl
  · rw [hf]
    obtain ⟨f, hbad, rfl⟩ | ⟨hbad, -, -, -, hlatch, -⟩ := exec_next_cases hx
    · exact congrArg (Option.map Fault.registerOutOfRange) hbad.symm
    · exact (hlatch.trans hs).trans (congrArg (Option.map Fault.registerOutOfRange) hbad.symm)

/-- A fetch fails exactly when there is no byte at the PC, or that byte's tag asks for more bytes than there
are (rules R72, R105). -/
theorem fetchInstr_missing_iff {s : State} (hpc : s.pc ≤ s.prog.len) :
    s.fetchInstr = .missing s.prog.len ↔
      s.pc = s.prog.len ∨
        ∃ b, s.prog.byteAt s.pc = some b ∧ s.prog.len < s.pc + (decodeOpcode b).length := by
  constructor
  · intro h
    rcases Nat.eq_or_lt_of_le hpc with hend | hlt
    · exact .inl hend
    · refine .inr ⟨_, byteAt_of_lt hlt, ?_⟩
      by_contra hfits
      obtain ⟨i, hi, -⟩ := (decodeFrom_byteAt s.prog s.pc (byteAt_of_lt hlt)).1 (Nat.le_of_not_lt hfits)
      cases h.symm.trans hi
  · have atEnd {a : Nat} (h : s.fetchInstr = .missing a) : s.fetchInstr = .missing s.prog.len :=
      fetchInstr_missing hpc h ▸ h
    rintro (hend | ⟨b, hb, hlt⟩)
    · have hnone : s.prog.byteAt s.pc = none := byteAt_of_le (Nat.le_of_eq hend.symm)
      exact atEnd (by rw [State.fetchInstr, decodeFrom, fetch8_none hnone])
    · obtain ⟨a, ha⟩ := (decodeFrom_byteAt s.prog s.pc hb).2 hlt
      exact atEnd ha

/-- A step latches a fetch fault exactly when its fetch fails. -/
theorem step_fetchFault_iff {s : State} (hs : s.ready) (hpc : s.pc ≤ s.prog.len) :
    (∃ t, step s = .next t ∧ t.faultLatch = some (.fetchOutOfRange s.prog.len)) ↔
      s.fetchInstr = .missing s.prog.len := by
  constructor
  · rintro ⟨t, h, hl⟩
    have hpriority := faultPriority s t h hpc
    rw [hl] at hpriority
    cases hf : s.fetchInstr with
    | missing a => rw [fetchInstr_missing hpc hf]
    | instr i n => simp [hf] at hpriority
  · exact fun hf => ⟨_, step_missing hs hpc hf, rfl⟩

/-- Settles O30: a step latches a fetch fault when its fetch fails, which the tag at the PC decides. -/
theorem fetchFailsExactlyWhenTruncated : Obligations.FetchFailsExactlyWhenTruncated := by
  intro s hs hpc
  rw [step_fetchFault_iff hs hpc, fetchInstr_missing_iff hpc]

/-! ### At the end of the program and beyond -/

/-- At the end of the program a step takes a fetch fault (the strict guard of rule R101). -/
theorem step_at_end {s : State} (hs : s.ready) (hpc : s.pc = s.prog.len) :
    step s = .next (takeFault (.fetchOutOfRange s.prog.len) s) :=
  step_missing hs (Nat.le_of_eq hpc) ((fetchInstr_missing_iff (Nat.le_of_eq hpc)).2 (.inl hpc))

/-- Settles O10: at the end the fetch fails, and the guard leaves the PC beyond it. -/
theorem guardIsStrict : Obligations.GuardIsStrict := by
  constructor
  · intro s hs hpc
    exact ⟨_, step_at_end hs hpc, takeFault_faultLatch _ s, takeFault_regs _ s, takeFault_prog _ s, fun _ => rfl⟩
  · intro s t hs hpc h
    cases (step_guard hs hpc).symm.trans h
    exact step_guard (s := s.endStep s.pc .halted) hs hpc

end Sys2Proof.Machine
end

section
/-! SUPPORT. HALT and JUMP, and the step after each (rules R120, R160, R161): both end the step cleanly, at a PC
from which the next step fetches, faults or halts. -/

namespace Sys2Proof.Machine

/-- After a step ended cleanly at `p`, the instruction fetched from `p` is run. -/
theorem step_endStep_instr {s : State} (hs : s.ready) {p n : Nat} {i : Instr} (r : Report)
    (hf : decodeFrom s.prog.byteAt p = .instr i n) : step (s.endStep p r) = exec i (s.endStep p r) :=
  step_instr (s := s.endStep p r) hs (Nat.le_of_lt (fetchInstr_lt (s := s.endStep p r) hf)) hf

/-- After a step ended cleanly at the end of the program, the fetch faults. -/
theorem step_endStep_at_end {s : State} (hs : s.ready) {p : Nat} (r : Report) (hp : p = s.prog.len) :
    step (s.endStep p r) = .next (takeFault (.fetchOutOfRange s.prog.len) (s.endStep p r)) :=
  step_at_end (s := s.endStep p r) hs hp

/-- Settles O15: HALT ends the step cleanly one byte on. -/
theorem haltOnlyMovesThePc : Obligations.HaltOnlyMovesThePc := by
  intro s
  refine ⟨_, exec_halt s, endStep_pc s _ _, endStep_report s _ _, endStep_regs s _ _,
    keepsRest_endStep s _ _, ?_, ?_⟩
  · intro hs hend
    exact ⟨_, step_endStep_at_end hs .halted hend, takeFault_faultLatch _ _⟩
  · intro hs i n _ hf
    exact step_endStep_instr hs .halted hf

/-! ### JUMP -/

/-- A JUMP to its own offset runs on, for any fuel: each step ends at the same PC and reports running. -/
theorem neverEnds_of_jump_self {s : State} {target : Byte} {n : Nat} (hs : s.ready)
    (hf : s.fetchInstr = .instr (.jump target) n) (hself : target.toNat = s.pc) : NeverEnds s := by
  intro fuel
  induction fuel generalizing s with
  | zero => exact ⟨s, rfl⟩
  | succ fuel ih =>
    have hpc : s.pc ≤ s.prog.len := Nat.le_of_lt (fetchInstr_lt hf)
    have hstep : step s = .next (s.endStep target.toNat .running) :=
      (step_instr hs hpc hf).trans (exec_jump target s)
    have hf' : (s.endStep target.toNat .running).fetchInstr = .instr (.jump target) n := by
      rw [hself]
      exact hf
    rw [runFor_succ hstep, endStep_report, if_pos rfl]
    exact ih hs hf' rfl

/-- Settles O23: JUMP ends the step cleanly at its target, and one cut short is not fetched. -/
theorem jumpAssignsThePc : Obligations.JumpAssignsThePc := by
  refine ⟨fun s target => ?_, fun s target n hs _ hf hself => neverEnds_of_jump_self hs hf hself,
    fun s b hs hlast hb hop => ?_⟩
  · exact ⟨_, exec_jump target s, endStep_pc s _ _, endStep_report s _ _, endStep_regs s _ _,
      keepsRest_endStep s _ _, fun p => exec_jump target { s with pc := p }⟩
  · have hpc : s.pc ≤ s.prog.len := by omega
    have hlen : s.prog.len < s.pc + (decodeOpcode b).length := by
      rw [hop, Opcode.length]
      omega
    have hf := (fetchInstr_missing_iff hpc).2 (.inr ⟨b, hb, hlen⟩)
    exact ⟨_, step_missing hs hpc hf, takeFault_faultLatch _ s, takeFault_regs _ s⟩

/-- Settles O24: the step after a JUMP starts at the target, inside the program, at its end, or beyond it. -/
theorem stepAfterJumpByTarget : Obligations.StepAfterJumpByTarget := by
  intro s t target hs h
  cases (exec_jump target s).symm.trans h
  refine ⟨fun hlt => ⟨_, byteAt_of_lt hlt, fun hfits => ?_⟩, fun hend => ?_, fun hbeyond => ?_⟩
  · obtain ⟨i, hi, hop⟩ := (decodeFrom_byteAt s.prog target.toNat (byteAt_of_lt hlt)).1 (by omega)
    exact ⟨i, _, hi, hop, step_endStep_instr hs .running hi⟩
  · exact ⟨_, step_endStep_at_end hs .running hend, takeFault_faultLatch _ _, takeFault_regs _ _⟩
  · exact ⟨_, step_guard (s := s.endStep target.toNat .running) hs hbeyond, endStep_report _ _ _, hs,
      endStep_pc _ _ _, endStep_regs _ _ _⟩

end Sys2Proof.Machine
end

section
/-! SUPPORT. What a host command leaves (rules R38, R202 to R207): the one inversion that every proof about
commands cites, and the commands of the host's interface one by one. -/

namespace Sys2Proof.Machine

/-! ### A run's state -/

/-- Where a run stands, whether it has ended or not. -/
def RunState.state : RunState → State
  | .ended s => s
  | .unfinished s => s

/-- What every step keeps, a run under any fuel keeps. -/
theorem runFor_keeps {P : State → Prop} (hstep : ∀ s t, P s → step s = .next t → P t) {s : State} (hs : P s)
    (fuel : Nat) : P (runFor fuel s).state := by
  induction fuel generalizing s with
  | zero => exact hs
  | succ fuel ih =>
    rw [runFor]
    split
    · next t ht =>
      have hP : P t := hstep s t hs ht
      split
      · exact ih hP
      · exact hP
    · exact hs
    · exact hs

/-! ### The state after a command -/

/-- RUN leaves the state where its run stands. -/
theorem command_run_fst {s : State} (hs : s.ready) (progMax fuel : Nat) :
    (command progMax fuel .run s).1 = (runFor fuel s).state := by
  rw [command, if_pos hs]
  cases runFor fuel s <;> rfl

/-- What a command makes of the state: nothing, the state after RESET, or, with no fault latched, what a load,
a register write, a step or a run makes of it. -/
theorem command_cases (progMax fuel : Nat) (c : Command) (s : State) :
    (command progMax fuel c s).1 = s ∨
    (c = .reset ∧ (command progMax fuel c s).1 = resetCommand s) ∨
    (s.ready ∧
      ((∃ bytes, c = .loadProgram bytes ∧ bytes.length ≤ progMax ∧
          (command progMax fuel c s).1 = loadProgram bytes s) ∨
        (∃ i v, c = .regWrite i.val v ∧ (command progMax fuel c s).1 = s.setReg i v) ∨
        (c = .step ∧ step s = .next (command progMax fuel c s).1) ∨
        (c = .run ∧ (command progMax fuel c s).1 = (runFor fuel s).state))) := by
  cases c with
  | reset => exact .inr (.inl ⟨rfl, rfl⟩)
  | observePc => exact .inl rfl
  | observeFault => exact .inl rfl
  | regRead index =>
    rw [command]
    split <;> exact .inl rfl
  | loadProgram bytes =>
    rw [command]
    split
    · next h => exact .inr (.inr ⟨h.1, .inl ⟨bytes, rfl, h.2, rfl⟩⟩)
    · exact .inl rfl
  | regWrite index value =>
    rw [command]
    split
    · next h => exact .inr (.inr ⟨h.1, .inr (.inl ⟨⟨index, h.2⟩, value, rfl, rfl⟩)⟩)
    · exact .inl rfl
  | step =>
    rw [command]
    split
    · next t ht => exact .inr (.inr ⟨(step_cases ht).1, .inr (.inr (.inl ⟨rfl, ht⟩))⟩)
    · exact .inl rfl
    · exact .inl rfl
  | run =>
    by_cases hs : s.ready
    · exact .inr (.inr ⟨hs, .inr (.inr (.inr ⟨rfl, command_run_fst hs progMax fuel⟩))⟩)
    · exact .inl (by rw [command, if_neg hs])

/-- Settles O39: by what each command makes of the state; the core's own writes leave the program alone. -/
theorem whoWritesEachPieceOfState : Obligations.WhoWritesEachPieceOfState := by
  intro progMax fuel c s t r h
  obtain rfl : (command progMax fuel c s).1 = t := by rw [h]
  obtain e | ⟨rfl, -⟩ | ⟨hs, ⟨bytes, rfl, -, e⟩ | ⟨i, v, rfl, e⟩ | ⟨rfl, e⟩ | ⟨rfl, e⟩⟩ :=
    command_cases progMax fuel c s
  · rw [e]
    exact ⟨absurd rfl, absurd rfl, absurd rfl, absurd rfl, fun hlatched hs => absurd hs hlatched⟩
  · simp
  · simp [e, hs]
  · simp [e, hs]
  · simp [(step_frame e).1, hs]
  · have hprog : (runFor fuel s).state.prog = s.prog :=
      runFor_keeps (P := fun u => u.prog = s.prog) (fun _ _ hu ht => (step_frame ht).1.trans hu) rfl fuel
    simp [e, hprog, hs]

/-! ### Loading, and reading and writing registers -/

section
variable {s : State}

theorem command_loadProgram (hs : s.ready) {bytes : List Byte} {progMax : Nat} (h : bytes.length ≤ progMax)
    (fuel : Nat) : command progMax fuel (.loadProgram bytes) s = (loadProgram bytes s, .done) :=
  if_pos ⟨hs, h⟩

theorem command_loadProgram_refused {bytes : List Byte} {progMax : Nat}
    (h : ¬ s.ready ∨ progMax < bytes.length) (fuel : Nat) :
    command progMax fuel (.loadProgram bytes) s = (s, .refused) :=
  if_neg (by rintro ⟨hs, hlen⟩; exact h.elim (· hs) (Nat.not_lt_of_le hlen))

theorem command_regWrite (hs : s.ready) {index : Nat} (h : index < 32) (progMax fuel : Nat) (v : Word) :
    command progMax fuel (.regWrite index v) s = (s.setReg ⟨index, h⟩ v, .done) :=
  dif_pos ⟨hs, h⟩

theorem command_regWrite_refused {index : Nat} (h : ¬ s.ready ∨ 32 ≤ index) (progMax fuel : Nat) (v : Word) :
    command progMax fuel (.regWrite index v) s = (s, .refused) :=
  dif_neg (by rintro ⟨hs, hlt⟩; exact h.elim (· hs) (Nat.not_le_of_lt hlt))

theorem command_regRead {index : Nat} (h : index < 32) (progMax fuel : Nat) :
    command progMax fuel (.regRead index) s = (s, .word (s.getReg ⟨index, h⟩)) :=
  dif_pos h

theorem command_regRead_refused {index : Nat} (h : 32 ≤ index) (progMax fuel : Nat) :
    command progMax fuel (.regRead index) s = (s, .refused) :=
  dif_neg (Nat.not_lt_of_le h)

end

/-- A loaded buffer is the list of the bytes loaded. -/
theorem toBytes_ofBytes (bytes : List Byte) : (Memory.ofBytes bytes).toBytes = bytes :=
  List.ext_getElem? fun a => (getElem?_toBytes _ a).trans (byteAt_ofBytes bytes a)

/-- Settles O35: a load replaces the buffer by one that holds exactly the bytes. -/
theorem loadProgramReplacesTheBuffer : Obligations.LoadProgramReplacesTheBuffer := by
  intro progMax fuel bytes s
  refine ⟨fun hs hlen => ?_, fun h => command_loadProgram_refused h fuel⟩
  exact ⟨_, command_loadProgram hs hlen fuel, toBytes_ofBytes bytes, ofBytes_len bytes, byteAt_ofBytes bytes,
    ofBytes_wf bytes, loadProgram_pc bytes s, loadProgram_regs bytes s, (loadProgram_faultLatch bytes s).trans hs⟩

/-- Settles O37: a register write is read back and keeps the rest. -/
theorem hostRegisterAccess : Obligations.HostRegisterAccess := by
  intro progMax fuel s index v
  refine ⟨fun h hs => ?_, fun h => command_regRead h progMax fuel, fun h => ?_,
    fun hs => command_regWrite_refused (.inl hs) progMax fuel v⟩
  · refine ⟨_, command_regWrite hs h progMax fuel v, ?_, fun r hr => getReg_setReg_ne s v hr, setReg_pc s _ v,
      setReg_report s _ v, ⟨rfl, fun _ => rfl⟩, rfl, rfl⟩
    rw [command_regRead h, getReg_setReg_same]
  · exact ⟨command_regWrite_refused (.inr h) progMax fuel v, command_regRead_refused h progMax fuel⟩

/-- Settles O40: the load writes the program and the seed a register, whichever comes first. -/
theorem loadAndSeedInEitherOrder : Obligations.LoadAndSeedInEitherOrder := by
  intro progMax fuel bytes index v s hs hlen h
  have hloaded : (loadProgram bytes s).ready := hs
  have hseeded : (s.setReg ⟨index, h⟩ v).ready := hs
  exact ⟨_, _, _, command_loadProgram hs hlen fuel, command_regWrite hloaded h progMax fuel v,
    command_regWrite hs h progMax fuel v, command_loadProgram hseeded hlen fuel⟩

/-! ### With a fault latched, and observing -/

/-- Settles O38: each command asks whether a fault is latched before it writes. -/
theorem latchedFaultBlocksCommands : Obligations.LatchedFaultBlocksCommands := by
  intro progMax fuel s f hl
  have hstop : ¬ s.ready := by simp [State.ready, hl]
  refine ⟨step_latched hl, fun c hc => ?_, fun r => command_regRead r.isLt progMax fuel, ?_, rfl⟩
  · obtain hcore | ⟨bytes, rfl⟩ | ⟨i, v, rfl⟩ := hc
    · obtain rfl | rfl : c = .step ∨ c = .run := by simpa using hcore
      · simp only [command, step_latched hl]
      · exact if_neg hstop
    · exact command_loadProgram_refused (.inl hstop) fuel
    · exact command_regWrite_refused (.inl hstop) progMax fuel v
  · rw [command, hl]
    cases f <;> rfl

/-- Settles O47: both observations answer from the state and leave it. -/
theorem observingPcAndFault : Obligations.ObservingPcAndFault := by
  intro progMax fuel s
  refine ⟨rfl, fun hs => ?_⟩
  rw [command, hs]
  rfl

end Sys2Proof.Machine
end

section
/-! SUPPORT. The invariant (rules R28, R33, R178): every step keeps it, so every command does. -/

namespace Sys2Proof.Machine

/-- The report is a fault exactly while that fault is latched. -/
def ReportMatchesLatch (s : State) : Prop := ∀ f, s.faultLatch = some f ↔ s.report = .faulted f

/-- With no fault latched, a report that is no fault matches. -/
theorem reportMatchesLatch_of_ready {s : State} (hs : s.ready) (hr : s.report = .halted ∨ s.report = .running) :
    ReportMatchesLatch s := by
  intro f
  obtain hr | hr := hr <;> simp [hs, hr]

theorem reportMatchesLatch_takeFault (f : Fault) (s : State) : ReportMatchesLatch (takeFault f s) := by
  intro g
  simp

/-- After any step the report matches the latch, whatever it was before. -/
theorem reportMatchesLatch_of_step {s t : State} (h : step s = .next t) : ReportMatchesLatch t := by
  obtain ⟨ht, hr⟩ | ⟨f, rfl⟩ := step_report_cases h
  · exact reportMatchesLatch_of_ready ht hr
  · exact reportMatchesLatch_takeFault f s

/-- A step keeps the bound of rule R28. -/
theorem step_keeps_pcBounded {bound : Nat} {s t : State} (hs : PcBounded bound s) (h : step s = .next t) :
    PcBounded bound t := by
  obtain ⟨hlen, hpc⟩ := hs
  obtain ⟨hprog, -⟩ := step_frame h
  refine ⟨hprog ▸ hlen, fun ht => ?_⟩
  obtain ⟨hkeep, -⟩ | hle := step_pc_le h ht
  · exact hkeep ▸ hpc (step_cases h).1
  · exact hle.trans (max_le_max_right 255 hlen)

/-- Settles O43: a step leaves the buffer alone, the PC bounded, and a report that matches. -/
theorem stepKeepsInvariant : Obligations.StepKeepsInvariant := by
  rintro bound s t ⟨hwf, hpc, -⟩ h
  exact ⟨(step_frame h).1 ▸ hwf, step_keeps_pcBounded hpc h, reportMatchesLatch_of_step h⟩

/-- Settles O34: every field at its reset value, and the PC at the end of the empty program. -/
theorem resetMeetsInvariant : Obligations.ResetMeetsInvariant := by
  refine ⟨fun bound => ⟨reset_prog_wf, ⟨Nat.zero_le _, fun _ => Nat.zero_le _⟩, fun f => ?_⟩,
    getReg_reset, reset_pc, _, step_at_end rfl rfl, takeFault_faultLatch _ _⟩
  simp

/-- Settles O44: by what each command makes of the state, a run keeping what every step keeps. -/
theorem commandKeepsInvariant : Obligations.CommandKeepsInvariant := by
  intro bound progMax fuel c s hmax hs
  obtain e | ⟨-, e⟩ | ⟨-, ⟨bytes, -, hlen, e⟩ | ⟨i, v, -, e⟩ | ⟨-, e⟩ | ⟨-, e⟩⟩ :=
    command_cases progMax fuel c s
  · rwa [e]
  · rw [e]
    exact resetMeetsInvariant.1 bound
  · rw [e]
    obtain ⟨-, ⟨-, hpc⟩, hreport⟩ := hs
    exact ⟨ofBytes_wf bytes, ⟨hlen.trans hmax, hpc⟩, hreport⟩
  · rw [e]
    exact hs
  · exact stepKeepsInvariant bound s _ hs e
  · rw [e]
    exact runFor_keeps (stepKeepsInvariant bound) hs fuel

end Sys2Proof.Machine
end

section
/-! SUPPORT. Runs (rules R108, R109, R163, R164): STEP and RUN are the same machine, registers do not steer a run,
and so a run that meets a PC again does not end. -/

namespace Sys2Proof.Machine

/-! ### STEP and RUN -/

theorem command_step {s t : State} (h : step s = .next t) (progMax fuel : Nat) :
    command progMax fuel .step s = (t, .stepped t.report) := by
  simp only [command, h]

/-- More fuel changes nothing for a run that ends, nor for a core that stands stopped. -/
theorem runFor_ended_mono {s t : State} {fuel fuel' : Nat} (h : runFor fuel s = .ended t) (hle : fuel ≤ fuel') :
    runFor fuel' s = .ended t := by
  cases hl : s.faultLatch with
  | none =>
    obtain ⟨k, u, hk, hend⟩ := (runFor_eq_ended_iff hl fuel).1 h
    exact (runFor_eq_ended_iff hl fuel').2 ⟨k, u, by omega, hend⟩
  | some f =>
    have hstop (n : Nat) : runFor (n + 1) s = .ended s := by simp only [runFor, step_latched hl]
    cases fuel with
    | zero => cases h
    | succ fuel =>
      obtain ⟨n, rfl⟩ := Nat.exists_eq_add_of_le' (Nat.one_le_of_lt hle)
      rw [hstop, ← h, hstop]

/-- Settles O41: a run is as many steps as report running and one more, and a command leaves what it leads to. -/
theorem runIsRepeatedStep : Obligations.RunIsRepeatedStep := by
  refine ⟨fun progMax fuel s hs => ?_, fun s t fuel hs h => ⟨?_, fun progMax => ?_⟩,
    fun s t fuel hs h => ⟨?_, fun progMax => ?_⟩, fun s t fuel more h => ?_⟩
  · obtain ⟨t, ht⟩ := step_next_of_ready hs
    exact ⟨t, ht, command_step ht progMax fuel⟩
  · exact (runFor_eq_ended_iff hs fuel).1 h
  · rw [command, if_pos hs, h]
  · exact (runFor_eq_unfinished_iff hs fuel).1 h
  · rw [command, if_pos hs, h]
  · exact runFor_ended_mono h (Nat.le_add_right fuel more)

/-! ### Registers never steer control -/

/-- The two states agree on all that decides where a run goes: on everything but the registers. The PC is
excepted once a fault is latched (rule R179). -/
structure SameControl (s s' : State) : Prop where
  prog : s'.prog = s.prog
  faultLatch : s'.faultLatch = s.faultLatch
  report : s'.report = s.report
  pc : s.ready → s'.pc = s.pc

namespace SameControl

variable {s s' t : State}

theorem of_takeFault (hprog : s'.prog = s.prog) (f : Fault) : SameControl (takeFault f s) (takeFault f s') :=
  ⟨hprog, rfl, rfl, fun hr => by simp [State.ready] at hr⟩

/-- An instruction goes the same way on both sides: its first bad field, its PC and its report are its own. -/
theorem keeps_exec (h : SameControl s s') (hs : s.ready) (i : Instr) :
    ∃ t t', exec i s = .next t ∧ exec i s' = .next t' ∧ SameControl t t' := by
  cases hf : firstBadField i with
  | some f =>
    exact ⟨_, _, exec_of_firstBadField_eq_some hf s, exec_of_firstBadField_eq_some hf s', .of_takeFault h.prog _⟩
  | none =>
    obtain ⟨t, e, hpc, hr, ⟨hprog, -⟩, hlatch, -⟩ := exec_of_firstBadField_eq_none hf s
    obtain ⟨t', e', hpc', hr', ⟨hprog', -⟩, hlatch', -⟩ := exec_of_firstBadField_eq_none hf s'
    exact ⟨t, t', e, e', by rw [hprog', hprog, h.prog], by rw [hlatch', hlatch, h.faultLatch], hr'.trans hr.symm,
      fun _ => by rw [hpc', hpc, h.pc hs]⟩

/-- The guard, the fetch and the instruction each go the same way on both sides. -/
theorem keeps_step (h : SameControl s s') (hs : s.ready) :
    ∃ t t', step s = .next t ∧ step s' = .next t' ∧ SameControl t t' := by
  have hs' : s'.ready := h.faultLatch.trans hs
  have hpc := h.pc hs
  by_cases hg : s.prog.len < s.pc
  · have hg' : s'.prog.len < s'.pc := by rwa [hpc, h.prog]
    exact ⟨_, _, step_guard hs hg, step_guard hs' hg', h.prog, h.faultLatch, rfl, fun _ => hpc⟩
  · have hg : s.pc ≤ s.prog.len := Nat.le_of_not_lt hg
    have hg' : s'.pc ≤ s'.prog.len := by rwa [hpc, h.prog]
    have hfetch : s'.fetchInstr = s.fetchInstr := by rw [State.fetchInstr, State.fetchInstr, hpc, h.prog]
    cases hf : s.fetchInstr with
    | missing a =>
      exact ⟨_, _, step_missing hs hg hf, step_missing hs' hg' (hfetch.trans hf), .of_takeFault h.prog _⟩
    | instr i n =>
      rw [step_instr hs hg hf, step_instr hs' hg' (hfetch.trans hf)]
      exact h.keeps_exec hs i

/-- As many steps as one side takes, the other takes too. -/
theorem keeps_coreRun (h : SameControl s s') {n : Nat} (hrun : core.run n s = .next t) :
    ∃ t', core.run n s' = .next t' ∧ SameControl t t' := by
  induction n generalizing s s' with
  | zero =>
    cases hrun
    exact ⟨s', rfl, h⟩
  | succ n ih =>
    cases hl : s.faultLatch with
    | some f =>
      rw [coreRun_latched hl] at hrun
      cases hrun
    | none =>
      obtain ⟨u, u', hu, hu', huu⟩ := h.keeps_step hl
      rw [coreRun_next hu] at hrun
      rw [coreRun_next hu']
      exact ih huu hrun

end SameControl

/-- Settles O45: any number of steps keeps all but the registers the same. -/
theorem registersNeverSteerControl : Obligations.RegistersNeverSteerControl := by
  intro s s' n t hs hs' hpc hprog hreport hrun
  have h : SameControl s s' := ⟨hprog, hs'.trans hs.symm, hreport, fun _ => hpc⟩
  obtain ⟨t', hrun', ht⟩ := h.keeps_coreRun hrun
  exact ⟨t', hrun', ht.report, ht.faultLatch, ht.pc⟩

/-! ### How long a run that ends can be -/

/-- The run from `s` ends after `k` steps that report running and one that does not. -/
def EndsAfter (k : Nat) (s : State) : Prop := ∃ u t, RunsOn k s u ∧ step u = .next t ∧ t.report ≠ .running

section
variable {s s' u v : State}

theorem endsAfter_zero_iff : EndsAfter 0 s ↔ ∃ t, step s = .next t ∧ t.report ≠ .running := by
  simp [EndsAfter, runsOn_zero_iff]

theorem endsAfter_succ_iff {k : Nat} :
    EndsAfter (k + 1) s ↔ ∃ w, step s = .next w ∧ w.report = .running ∧ EndsAfter k w := by
  constructor
  · rintro ⟨u, t, hu, hend⟩
    obtain ⟨w, hw, hr, hu⟩ := runsOn_succ_iff.1 hu
    exact ⟨w, hw, hr, u, t, hu, hend⟩
  · rintro ⟨w, hw, hr, u, t, hu, hend⟩
    exact ⟨u, t, runsOn_succ_iff.2 ⟨w, hw, hr, hu⟩, hend⟩

/-- A run ends after one number of running steps only. -/
theorem EndsAfter.unique {k m : Nat} (hk : EndsAfter k s) (hm : EndsAfter m s) : k = m := by
  have not_both {n : Nat} {s : State} (h0 : EndsAfter 0 s) (hn : EndsAfter (n + 1) s) : False := by
    obtain ⟨t, ht, hr⟩ := endsAfter_zero_iff.1 h0
    obtain ⟨w, hw, hr', -⟩ := endsAfter_succ_iff.1 hn
    cases ht.symm.trans hw
    exact hr hr'
  induction k generalizing s m with
  | zero =>
    cases m with
    | zero => rfl
    | succ m => exact (not_both hk hm).elim
  | succ k ih =>
    cases m with
    | zero => exact (not_both hm hk).elim
    | succ m =>
      obtain ⟨w, hw, -, hk⟩ := endsAfter_succ_iff.1 hk
      obtain ⟨w', hw', -, hm⟩ := endsAfter_succ_iff.1 hm
      cases hw.symm.trans hw'
      rw [ih hk hm]

/-- Registers do not decide when a run ends. -/
theorem EndsAfter.sameControl {k : Nat} (hk : EndsAfter k s) (h : SameControl s s') : EndsAfter k s' := by
  induction k generalizing s s' with
  | zero =>
    obtain ⟨t, ht, hr⟩ := endsAfter_zero_iff.1 hk
    obtain ⟨u, u', hu, hu', huu⟩ := h.keeps_step (step_cases ht).1
    cases ht.symm.trans hu
    exact endsAfter_zero_iff.2 ⟨u', hu', huu.report ▸ hr⟩
  | succ k ih =>
    obtain ⟨w, hw, hr, hk⟩ := endsAfter_succ_iff.1 hk
    obtain ⟨u, u', hu, hu', huu⟩ := h.keeps_step (step_cases hw).1
    cases hw.symm.trans hu
    exact endsAfter_succ_iff.2 ⟨u', hu', huu.report.trans hr, ih hk huu⟩

/-- A run that ends passes through every number of running steps up to then. -/
theorem EndsAfter.exists_runsOn {k j : Nat} (h : EndsAfter k s) (hj : j ≤ k) :
    ∃ v, RunsOn j s v ∧ EndsAfter (k - j) v := by
  induction j generalizing s k with
  | zero => exact ⟨s, runsOn_zero_iff.2 rfl, h⟩
  | succ j ih =>
    obtain ⟨k, rfl⟩ := Nat.exists_eq_add_of_le' (Nat.one_le_of_lt hj)
    obtain ⟨w, hw, hr, hk⟩ := endsAfter_succ_iff.1 h
    obtain ⟨v, hv, hend⟩ := ih hk (Nat.le_of_succ_le_succ hj)
    exact ⟨v, runsOn_succ_iff.2 ⟨w, hw, hr, hv⟩, by rwa [Nat.add_sub_add_right]⟩

/-- After one running step or more the program is the same, the report is running, no fault is latched and the
PC is within rule R28's bound. -/
theorem runsOn_succ_bounded {j : Nat} (h : RunsOn (j + 1) s v) :
    v.ready ∧ v.prog = s.prog ∧ v.report = .running ∧ v.pc ≤ max s.prog.len 255 := by
  induction j generalizing s with
  | zero =>
    obtain ⟨w, hw, hr, hv⟩ := runsOn_succ_iff.1 h
    obtain rfl := runsOn_zero_iff.1 hv
    have hready : v.ready := ready_of_step_running hw hr
    refine ⟨hready, (step_frame hw).1, hr, ?_⟩
    obtain ⟨-, hhalt⟩ | hle := step_pc_le hw hready
    · cases hhalt.symm.trans hr
    · exact hle
  | succ j ih =>
    obtain ⟨w, hw, -, hv⟩ := runsOn_succ_iff.1 h
    have hprog : w.prog = s.prog := (step_frame hw).1
    simpa only [hprog] using ih hv

/-- A run that comes to one PC twice is at the same point of control. -/
theorem sameControl_of_runsOn {i j : Nat} (hu : RunsOn (i + 1) s u) (hv : RunsOn (j + 1) s v)
    (hpc : u.pc = v.pc) : SameControl u v := by
  obtain ⟨hready, hprog, hr, -⟩ := runsOn_succ_bounded hu
  obtain ⟨hready', hprog', hr', -⟩ := runsOn_succ_bounded hv
  exact ⟨hprog'.trans hprog.symm, hready'.trans hready.symm, hr'.trans hr.symm, fun _ => hpc.symm⟩

/-- The PCs after the running steps of a run that ends are distinct, since at the same point of control the same
number of steps is left; so there are no more of them than PCs within the bound. -/
theorem EndsAfter.le {k : Nat} (h : EndsAfter k s) : k ≤ max s.prog.len 255 + 1 := by
  have hpass (j : Fin k) : ∃ v, RunsOn (j + 1) s v ∧ EndsAfter (k - (j + 1)) v := h.exists_runsOn j.isLt
  choose v hrun hend using hpass
  have hbound (j : Fin k) : (v j).pc < max s.prog.len 255 + 1 := by
    obtain ⟨-, -, -, hle⟩ := runsOn_succ_bounded (hrun j)
    exact Nat.lt_succ_of_le hle
  have hinj : Function.Injective fun j => (⟨(v j).pc, hbound j⟩ : Fin (max s.prog.len 255 + 1)) := by
    intro i j hij
    have hsame : SameControl (v i) (v j) := sameControl_of_runsOn (hrun i) (hrun j) (Fin.mk.inj hij)
    have hleft : k - (i + 1) = k - (j + 1) := ((hend i).sameControl hsame).unique (hend j)
    omega
  simpa using Fintype.card_le_of_injective _ hinj

end

/-- Settles O46: the running steps of a run that ends are no more than the PCs within the bound, and the step
that ends it is one more. -/
theorem terminatingRunsAreShort : Obligations.TerminatingRunsAreShort := by
  intro s t fuel hs h
  obtain ⟨k, u, -, hu, hend⟩ := (runFor_eq_ended_iff hs fuel).1 h
  have hk : k ≤ max s.prog.len 255 + 1 := EndsAfter.le ⟨u, t, hu, hend⟩
  exact (runFor_eq_ended_iff hs _).2 ⟨k, u, by omega, hu, hend⟩

end Sys2Proof.Machine
end
